-- ==== Sys2Proof/Word.lean ====
section
/-! DEFINITION. The widths of the hardware's values (00_scope.md R7, R12): no value is signed. -/

namespace Sys2Proof

/-- A register value, an immediate `kk`, a memory byte (R12: 8-bit unsigned). -/
abbrev Byte := BitVec 8

/-- An instruction word, the pc, I, a stack entry, a memory-port address (R12: 16-bit unsigned). -/
abbrev Word := BitVec 16

/-- `class`, `x`, `y`, `n` (R12: 4-bit unsigned). A register index is one of these (R23). -/
abbrev Nibble := BitVec 4

/-- The field `nnn` (R12: 12-bit unsigned). -/
abbrev Addr := BitVec 12

/-- A 4-bit index names one of 16 registers, so the register file has no invalid index (R23). -/
theorem Nibble.lt_sixteen (x : Nibble) : x.toNat < 16 := x.isLt

end Sys2Proof
end

