-- ==== Sys2Proof/Syntax.lean ====
section
/-! DEFINITION. The instructions: one constructor per row of the opcode table (30_encoding.md R73), and the
assembler's tokens and lines (30_encoding.md R81). -/

namespace Sys2Proof

/-- One constructor per row of the opcode map R73, its operands the fields the row leaves free. `shrReg` and
`shlReg` keep `y`, which is encoded though the core ignores it (R81). -/
inductive Instr where
  /-- 00E0 CLS -/
  | cls
  /-- 00EE RET -/
  | ret
  /-- 1nnn JP nnn -/
  | jp (nnn : Addr)
  /-- 2nnn CALL nnn -/
  | call (nnn : Addr)
  /-- 3xkk SE Vx, kk -/
  | seImm (x : Nibble) (kk : Byte)
  /-- 4xkk SNE Vx, kk -/
  | sneImm (x : Nibble) (kk : Byte)
  /-- 5xy0 SE Vx, Vy -/
  | seReg (x y : Nibble)
  /-- 6xkk LD Vx, kk -/
  | ldImm (x : Nibble) (kk : Byte)
  /-- 7xkk ADD Vx, kk -/
  | addImm (x : Nibble) (kk : Byte)
  /-- 8xy0 LD Vx, Vy -/
  | ldReg (x y : Nibble)
  /-- 8xy1 OR Vx, Vy -/
  | orReg (x y : Nibble)
  /-- 8xy2 AND Vx, Vy -/
  | andReg (x y : Nibble)
  /-- 8xy3 XOR Vx, Vy -/
  | xorReg (x y : Nibble)
  /-- 8xy4 ADD Vx, Vy -/
  | addReg (x y : Nibble)
  /-- 8xy5 SUB Vx, Vy -/
  | subReg (x y : Nibble)
  /-- 8xy6 SHR Vx, Vy -/
  | shrReg (x y : Nibble)
  /-- 8xy7 SUBN Vx, Vy -/
  | subnReg (x y : Nibble)
  /-- 8xyE SHL Vx, Vy -/
  | shlReg (x y : Nibble)
  /-- 9xy0 SNE Vx, Vy -/
  | sneReg (x y : Nibble)
  /-- Annn LD I, nnn -/
  | ldI (nnn : Addr)
  /-- Bnnn JP V0, nnn -/
  | jpV0 (nnn : Addr)
  /-- Cxkk RND Vx, kk -/
  | rnd (x : Nibble) (kk : Byte)
  /-- Dxyn DRW Vx, Vy, n (slot) -/
  | drw (x y n : Nibble)
  /-- Ex9E SKP Vx (slot) -/
  | skp (x : Nibble)
  /-- ExA1 SKNP Vx (slot) -/
  | sknp (x : Nibble)
  /-- Fx07 LD Vx, DT (slot) -/
  | ldVxDt (x : Nibble)
  /-- Fx0A LD Vx, K (slot) -/
  | ldVxK (x : Nibble)
  /-- Fx15 LD DT, Vx (slot) -/
  | ldDtVx (x : Nibble)
  /-- Fx18 LD ST, Vx (slot) -/
  | ldStVx (x : Nibble)
  /-- Fx1E ADD I, Vx (slot) -/
  | addIVx (x : Nibble)
  /-- Fx29 LD F, Vx (slot) -/
  | ldFVx (x : Nibble)
  /-- Fx33 LD B, Vx (slot) -/
  | ldBVx (x : Nibble)
  /-- Fx55 LD [I], Vx (slot) -/
  | ldMemVx (x : Nibble)
  /-- Fx65 LD Vx, [I] (slot) -/
  | ldVxMem (x : Nibble)
deriving DecidableEq, Repr

/-- The conventional mnemonics of R73 and R81. -/
inductive Mnemonic where
  | cls | ret | jp | call | se | sne | ld | add | or | and | xor | sub | shr | subn | shl | rnd | drw | skp | sknp
deriving DecidableEq, Repr

/-- An operand as the assembler writes it (R81): a register `V0`..`VF`, a number, or a literal operand that is
part of the mnemonic and selects no field. -/
inductive AsmOperand where
  /-- `V0` .. `VF` -/
  | v (x : Nibble)
  /-- a number, decimal or `0x`-prefixed -/
  | num (k : Nat)
  /-- `I` -/
  | i
  /-- `DT` -/
  | dt
  /-- `ST` -/
  | st
  /-- `K` -/
  | k
  /-- `F` -/
  | f
  /-- `B` -/
  | b
  /-- `[I]` -/
  | memI
deriving DecidableEq, Repr

/-- One line `MNEMONIC op1, op2, op3` (R81). -/
structure AsmLine where
  mnemonic : Mnemonic
  operands : List AsmOperand
deriving DecidableEq, Repr

end Sys2Proof
end

