-- ==== Sys2Proof/Config.lean ====
section
/-! DEFINITION. The parameters the spec leaves open as arguments of the model (00_scope.md R8), with their
defaults, and the one free value: the random bytes the host supplies (40_engine.md R101). -/

namespace Sys2Proof

/-- The parameter `F_SLOT_SET`: exactly the three values R77 gives it. -/
inductive FSlotSet where
  /-- {07, 0A, 15, 18, 1E, 29, 33, 55, 65}: the default of R8 and R77. PRESUMED by the spec (general knowledge). -/
  | standard
  /-- {07, 0A, 15, 18}: only the codes the document names -/
  | named
  /-- all 256 values: every `Fxkk` a slot -/
  | all
deriving DecidableEq, Repr

/-- `kk in F_SLOT_SET` (30_encoding.md R77). -/
def FSlotSet.contains : FSlotSet → Byte → Bool
  | .standard, kk => [0x07, 0x0A, 0x15, 0x18, 0x1E, 0x29, 0x33, 0x55, 0x65].contains kk
  | .named, kk => [0x07, 0x0A, 0x15, 0x18].contains kk
  | .all, _ => true

/-- The parameter `SLOT_POLICY` (00_scope.md R8; 46_collaborator_slots.md R200, R213). -/
inductive SlotPolicy where
  /-- the default, what the hardware always does: one event and a pc advance (R200) -/
  | emitAndAdvance
  /-- the model's verdict REFUSED, for claims about a complete system (R213) -/
  | refuse
deriving DecidableEq, Repr

/-- The parameters of R8 but `RND`, which is a draw per step (`Config.randomByte`). -/
structure Config where
  /-- `FONT`: the 80 bytes at 0x000..0x04F (20_memory.md R54, R55) -/
  font : Vector Byte 80
  /-- `INIT_FILL`: every byte that neither the font nor the image sets at reset -/
  initFill : Byte
  /-- `F_SLOT_SET` -/
  fSlotSet : FSlotSet
  /-- `SLOT_POLICY` -/
  slotPolicy : SlotPolicy
deriving DecidableEq, Repr

/-- Glyphs 0 to 7 of the default `FONT` (20_memory.md R55). PRESUMED by the spec (general knowledge). -/
def Config.glyphs0to7 : List Byte :=
  [0xF0, 0x90, 0x90, 0x90, 0xF0] ++ [0x20, 0x60, 0x20, 0x20, 0x70] ++
  [0xF0, 0x10, 0xF0, 0x80, 0xF0] ++ [0xF0, 0x10, 0xF0, 0x10, 0xF0] ++
  [0x90, 0x90, 0xF0, 0x10, 0x10] ++ [0xF0, 0x80, 0xF0, 0x10, 0xF0] ++
  [0xF0, 0x80, 0xF0, 0x90, 0xF0] ++ [0xF0, 0x10, 0x20, 0x40, 0x40]

/-- Glyphs 8 to F of the default `FONT` (20_memory.md R55). PRESUMED by the spec (general knowledge). -/
def Config.glyphs8toF : List Byte :=
  [0xF0, 0x90, 0xF0, 0x90, 0xF0] ++ [0xF0, 0x90, 0xF0, 0x10, 0xF0] ++
  [0xF0, 0x90, 0xF0, 0x90, 0x90] ++ [0xE0, 0x90, 0xE0, 0x90, 0xE0] ++
  [0xF0, 0x80, 0x80, 0x80, 0xF0] ++ [0xE0, 0x90, 0x90, 0x90, 0xE0] ++
  [0xF0, 0x80, 0xF0, 0x80, 0xF0] ++ [0xF0, 0x80, 0xF0, 0x80, 0x80]

/-- The default `FONT`: byte `j` of glyph `d` at index `5 * d + j` (R55). -/
def Config.standardFont : Vector Byte 80 :=
  ⟨(Config.glyphs0to7 ++ Config.glyphs8toF).toArray, rfl⟩

/-- The defaults of R8. DESIGN CHOICE and PRESUMED as notes/assumptions 2, 3, 10 and 11 say. -/
def Config.default : Config where
  font := Config.standardFont
  initFill := 0x00
  fSlotSet := .standard
  slotPolicy := .emitAndAdvance

/-- The random bytes the host supplies, one for each use (40_engine.md R101; 45_index_jump_random.md R192:
"`rnd` is a free input of the step"). No body: nothing is known of any value. -/
opaque Config.randomByte : Nat → Byte

end Sys2Proof
end

