-- ==== Sys2Proof/WellFormed.lean ====
section
/-! DEFINITION. Which instructions a machine of a given `F_SLOT_SET` has (30_encoding.md R77), and the ranges an
assembler refuses (30_encoding.md R82). Operand fields carry their widths in their types (R12, R23), so no
instruction can name a seventeenth register. -/

namespace Sys2Proof

/-- The `kk` of a class-F row (R73), none for the rows of the other classes. -/
def Instr.fCode : Instr → Option Byte
  | .ldVxDt _ => some 0x07
  | .ldVxK _ => some 0x0A
  | .ldDtVx _ => some 0x15
  | .ldStVx _ => some 0x18
  | .addIVx _ => some 0x1E
  | .ldFVx _ => some 0x29
  | .ldBVx _ => some 0x33
  | .ldMemVx _ => some 0x55
  | .ldVxMem _ => some 0x65
  | .cls | .ret | .jp _ | .call _ | .seImm _ _ | .sneImm _ _ | .seReg _ _ | .ldImm _ _ | .addImm _ _
  | .ldReg _ _ | .orReg _ _ | .andReg _ _ | .xorReg _ _ | .addReg _ _ | .subReg _ _ | .shrReg _ _
  | .subnReg _ _ | .shlReg _ _ | .sneReg _ _ | .ldI _ | .jpV0 _ | .rnd _ _ | .drw _ _ _ | .skp _ | .sknp _ => none

/-- The instruction exists on a machine with this `F_SLOT_SET`: a class-F row is "present when" its `kk` is in
the set (46_collaborator_slots.md R204 to R212), every other row always is. -/
def Instr.wellFormed (set : FSlotSet) (i : Instr) : Bool :=
  match i.fCode with
  | some kk => set.contains kk
  | none => true

/-- "An assembler refuses a `kk` above 0xFF" (R82). -/
def kkFits (k : Nat) : Bool := k ≤ 0xFF

/-- An assembler refuses "an `nnn` above 0xFFF" (R82). -/
def nnnFits (k : Nat) : Bool := k ≤ 0xFFF

/-- An assembler refuses "an `n` above 0xF" (R82). -/
def nFits (k : Nat) : Bool := k ≤ 0xF

end Sys2Proof
end

