-- ==== Sys2Proof/Decode.lean ====
section
/-! DEFINITION. The field decoder (30_encoding.md R71), the opcode map (R73), its classification (R79), and the
encoder. Everything is total; an unmatched word is rejected by the class that has no row for it. -/

namespace Sys2Proof

/-! ### Fields (R70, R71) -/

/-- `class = w[15:12]` (R71). -/
def classOf (w : Word) : Nibble := w.extractLsb' 12 4

/-- `x = w[11:8]` (R71). -/
def xOf (w : Word) : Nibble := w.extractLsb' 8 4

/-- `y = w[7:4]` (R71). -/
def yOf (w : Word) : Nibble := w.extractLsb' 4 4

/-- `n = w[3:0]` (R71). -/
def nOf (w : Word) : Nibble := w.extractLsb' 0 4

/-- `kk = w[7:0]` (R71). -/
def kkOf (w : Word) : Byte := w.extractLsb' 0 8

/-- `nnn = w[11:0]` (R71). -/
def nnnOf (w : Word) : Addr := w.extractLsb' 0 12

/-- The outputs of the `opcode_decoder` block (R71). -/
structure Fields where
  cls : Nibble
  x : Nibble
  y : Nibble
  n : Nibble
  kk : Byte
  nnn : Addr
deriving DecidableEq, Repr

/-- The `opcode_decoder` block: "Pure function, no side effects", total on all 65536 words (R71). -/
def decodeFields (w : Word) : Fields :=
  { cls := classOf w, x := xOf w, y := yOf w, n := nOf w, kk := kkOf w, nnn := nnnOf w }

/-! ### The opcode map (R73) -/

/-- Why a byte sequence is no instruction of the map: no two bytes, or a class without a row for the word. -/
inductive Reject where
  /-- fewer than two bytes -/
  | truncated
  /-- a class-0 word other than 00E0 and 00EE (R74) -/
  | class0
  /-- 5xyN with N ≠ 0 (R75) -/
  | class5
  /-- 8xy8 to 8xyD and 8xyF (R75) -/
  | class8
  /-- 9xyN with N ≠ 0 (R75) -/
  | class9
  /-- a class-E word whose `kk` is neither 9E nor A1 (R76) -/
  | classE
  /-- a class-F word whose `kk` has no row in R73 (R77) -/
  | classF
deriving DecidableEq, Repr

/-- Class 0: only the two whole words (R74). -/
def decodeClass0 (w : Word) : Except Reject Instr :=
  if w = 0x00E0 then .ok .cls
  else if w = 0x00EE then .ok .ret
  else .error .class0

/-- Class 8 selects on `n` (R75). -/
def decodeClass8 (w : Word) : Except Reject Instr :=
  if nOf w = 0x0 then .ok (.ldReg (xOf w) (yOf w))
  else if nOf w = 0x1 then .ok (.orReg (xOf w) (yOf w))
  else if nOf w = 0x2 then .ok (.andReg (xOf w) (yOf w))
  else if nOf w = 0x3 then .ok (.xorReg (xOf w) (yOf w))
  else if nOf w = 0x4 then .ok (.addReg (xOf w) (yOf w))
  else if nOf w = 0x5 then .ok (.subReg (xOf w) (yOf w))
  else if nOf w = 0x6 then .ok (.shrReg (xOf w) (yOf w))
  else if nOf w = 0x7 then .ok (.subnReg (xOf w) (yOf w))
  else if nOf w = 0xE then .ok (.shlReg (xOf w) (yOf w))
  else .error .class8

/-- Class E selects on `kk` (R76). -/
def decodeClassE (w : Word) : Except Reject Instr :=
  if kkOf w = 0x9E then .ok (.skp (xOf w))
  else if kkOf w = 0xA1 then .ok (.sknp (xOf w))
  else .error .classE

/-- Class F: the nine rows of R73. Which of them a machine has is `classify`'s business (R77). -/
def decodeClassF (w : Word) : Except Reject Instr :=
  if kkOf w = 0x07 then .ok (.ldVxDt (xOf w))
  else if kkOf w = 0x0A then .ok (.ldVxK (xOf w))
  else if kkOf w = 0x15 then .ok (.ldDtVx (xOf w))
  else if kkOf w = 0x18 then .ok (.ldStVx (xOf w))
  else if kkOf w = 0x1E then .ok (.addIVx (xOf w))
  else if kkOf w = 0x29 then .ok (.ldFVx (xOf w))
  else if kkOf w = 0x33 then .ok (.ldBVx (xOf w))
  else if kkOf w = 0x55 then .ok (.ldMemVx (xOf w))
  else if kkOf w = 0x65 then .ok (.ldVxMem (xOf w))
  else .error .classF

/-- The opcode map R73, dispatching "on class, then sub-field where the class is polymorphic". -/
def decodeWord (w : Word) : Except Reject Instr :=
  if classOf w = 0x0 then decodeClass0 w
  else if classOf w = 0x1 then .ok (.jp (nnnOf w))
  else if classOf w = 0x2 then .ok (.call (nnnOf w))
  else if classOf w = 0x3 then .ok (.seImm (xOf w) (kkOf w))
  else if classOf w = 0x4 then .ok (.sneImm (xOf w) (kkOf w))
  else if classOf w = 0x5 then (if nOf w = 0x0 then .ok (.seReg (xOf w) (yOf w)) else .error .class5)
  else if classOf w = 0x6 then .ok (.ldImm (xOf w) (kkOf w))
  else if classOf w = 0x7 then .ok (.addImm (xOf w) (kkOf w))
  else if classOf w = 0x8 then decodeClass8 w
  else if classOf w = 0x9 then (if nOf w = 0x0 then .ok (.sneReg (xOf w) (yOf w)) else .error .class9)
  else if classOf w = 0xA then .ok (.ldI (nnnOf w))
  else if classOf w = 0xB then .ok (.jpV0 (nnnOf w))
  else if classOf w = 0xC then .ok (.rnd (xOf w) (kkOf w))
  else if classOf w = 0xD then .ok (.drw (xOf w) (yOf w) (nOf w))
  else if classOf w = 0xE then decodeClassE w
  else decodeClassF w

/-! ### Bytes: the opcode is big-endian (20_memory.md R52) -/

/-- "the byte at the lower address is bits 15–8" (R52). -/
def wordOfBytes (hi lo : Byte) : Word := hi ++ lo

/-- Bits 15–8 of a word, the byte at the lower address (R52). -/
def hiByte (w : Word) : Byte := w.extractLsb' 8 8

/-- Bits 7–0 of a word, the byte at the higher address (R52). -/
def loByte (w : Word) : Byte := w.extractLsb' 0 8

/-- A word as the hardware stores it (R52). -/
def wordBytes (w : Word) : List Byte := [hiByte w, loByte w]

/-- The instruction at the front of a byte sequence, with the bytes after it (R70: one length, two bytes). -/
def decode : List Byte → Except Reject (Instr × List Byte)
  | hi :: lo :: rest =>
    match decodeWord (wordOfBytes hi lo) with
    | .ok i => .ok (i, rest)
    | .error r => .error r
  | [_] => .error .truncated
  | [] => .error .truncated

/-! ### Classification (R79) -/

/-- What the dispatch makes of a word (R79). -/
inductive Op where
  /-- a row of R73 that this machine has -/
  | instr (i : Instr)
  /-- `SLOT_F(kk)` for a `kk` that is in `F_SLOT_SET` but has no row in R73 (R77: only under `all`) -/
  | slotF (kk : Byte)
  /-- `UNKNOWN` (R78) -/
  | unknown
deriving DecidableEq, Repr

/-- `classify(w)` of R79, a total function of the word and `F_SLOT_SET`. -/
def classify (set : FSlotSet) (w : Word) : Op :=
  match decodeWord w with
  | .ok i => if i.wellFormed set then .instr i else .unknown
  | .error .classF => if set.contains (kkOf w) then .slotF (kkOf w) else .unknown
  | .error .truncated | .error .class0 | .error .class5 | .error .class8 | .error .class9
  | .error .classE => .unknown

/-! ### The encoder (R70, R73) -/

/-- The address format: class, `nnn` (R70). -/
def packNnn (c : Nibble) (nnn : Addr) : Word := c ++ nnn

/-- The byte format: class, `x`, `kk` (R70). -/
def packXkk (c x : Nibble) (kk : Byte) : Word := packNnn c (x ++ kk)

/-- The nibble format: class, `x`, `y`, `n` (R70). -/
def packXyn (c x y n : Nibble) : Word := packXkk c x (y ++ n)

/-- The word of an instruction (R73). -/
def encode : Instr → Word
  | .cls => 0x00E0
  | .ret => 0x00EE
  | .jp nnn => packNnn 0x1 nnn
  | .call nnn => packNnn 0x2 nnn
  | .seImm x kk => packXkk 0x3 x kk
  | .sneImm x kk => packXkk 0x4 x kk
  | .seReg x y => packXyn 0x5 x y 0x0
  | .ldImm x kk => packXkk 0x6 x kk
  | .addImm x kk => packXkk 0x7 x kk
  | .ldReg x y => packXyn 0x8 x y 0x0
  | .orReg x y => packXyn 0x8 x y 0x1
  | .andReg x y => packXyn 0x8 x y 0x2
  | .xorReg x y => packXyn 0x8 x y 0x3
  | .addReg x y => packXyn 0x8 x y 0x4
  | .subReg x y => packXyn 0x8 x y 0x5
  | .shrReg x y => packXyn 0x8 x y 0x6
  | .subnReg x y => packXyn 0x8 x y 0x7
  | .shlReg x y => packXyn 0x8 x y 0xE
  | .sneReg x y => packXyn 0x9 x y 0x0
  | .ldI nnn => packNnn 0xA nnn
  | .jpV0 nnn => packNnn 0xB nnn
  | .rnd x kk => packXkk 0xC x kk
  | .drw x y n => packXyn 0xD x y n
  | .skp x => packXkk 0xE x 0x9E
  | .sknp x => packXkk 0xE x 0xA1
  | .ldVxDt x => packXkk 0xF x 0x07
  | .ldVxK x => packXkk 0xF x 0x0A
  | .ldDtVx x => packXkk 0xF x 0x15
  | .ldStVx x => packXkk 0xF x 0x18
  | .addIVx x => packXkk 0xF x 0x1E
  | .ldFVx x => packXkk 0xF x 0x29
  | .ldBVx x => packXkk 0xF x 0x33
  | .ldMemVx x => packXkk 0xF x 0x55
  | .ldVxMem x => packXkk 0xF x 0x65

/-! ### The table's masks (R73, opcode_table.json), written beside decoder and encoder to check both -/

/-- One row of R73: a word belongs to it when `w & mask = match`. -/
structure OpcodeRow where
  mask : Word
  bits : Word
deriving DecidableEq, Repr

/-- The word matches the row. -/
def OpcodeRow.matchesWord (r : OpcodeRow) (w : Word) : Bool := w &&& r.mask == r.bits

/-- The `mask / match` of each instruction's row (R73). -/
def Instr.row : Instr → OpcodeRow
  | .cls => ⟨0xFFFF, 0x00E0⟩
  | .ret => ⟨0xFFFF, 0x00EE⟩
  | .jp _ => ⟨0xF000, 0x1000⟩
  | .call _ => ⟨0xF000, 0x2000⟩
  | .seImm _ _ => ⟨0xF000, 0x3000⟩
  | .sneImm _ _ => ⟨0xF000, 0x4000⟩
  | .seReg _ _ => ⟨0xF00F, 0x5000⟩
  | .ldImm _ _ => ⟨0xF000, 0x6000⟩
  | .addImm _ _ => ⟨0xF000, 0x7000⟩
  | .ldReg _ _ => ⟨0xF00F, 0x8000⟩
  | .orReg _ _ => ⟨0xF00F, 0x8001⟩
  | .andReg _ _ => ⟨0xF00F, 0x8002⟩
  | .xorReg _ _ => ⟨0xF00F, 0x8003⟩
  | .addReg _ _ => ⟨0xF00F, 0x8004⟩
  | .subReg _ _ => ⟨0xF00F, 0x8005⟩
  | .shrReg _ _ => ⟨0xF00F, 0x8006⟩
  | .subnReg _ _ => ⟨0xF00F, 0x8007⟩
  | .shlReg _ _ => ⟨0xF00F, 0x800E⟩
  | .sneReg _ _ => ⟨0xF00F, 0x9000⟩
  | .ldI _ => ⟨0xF000, 0xA000⟩
  | .jpV0 _ => ⟨0xF000, 0xB000⟩
  | .rnd _ _ => ⟨0xF000, 0xC000⟩
  | .drw _ _ _ => ⟨0xF000, 0xD000⟩
  | .skp _ => ⟨0xF0FF, 0xE09E⟩
  | .sknp _ => ⟨0xF0FF, 0xE0A1⟩
  | .ldVxDt _ => ⟨0xF0FF, 0xF007⟩
  | .ldVxK _ => ⟨0xF0FF, 0xF00A⟩
  | .ldDtVx _ => ⟨0xF0FF, 0xF015⟩
  | .ldStVx _ => ⟨0xF0FF, 0xF018⟩
  | .addIVx _ => ⟨0xF0FF, 0xF01E⟩
  | .ldFVx _ => ⟨0xF0FF, 0xF029⟩
  | .ldBVx _ => ⟨0xF0FF, 0xF033⟩
  | .ldMemVx _ => ⟨0xF0FF, 0xF055⟩
  | .ldVxMem _ => ⟨0xF0FF, 0xF065⟩

/-- The 34 rows of R73, in the table's order. -/
def opcodeRows : List OpcodeRow :=
  [Instr.row .cls, Instr.row .ret, Instr.row (.jp 0), Instr.row (.call 0), Instr.row (.seImm 0 0),
    Instr.row (.sneImm 0 0), Instr.row (.seReg 0 0), Instr.row (.ldImm 0 0), Instr.row (.addImm 0 0)] ++
  [Instr.row (.ldReg 0 0), Instr.row (.orReg 0 0), Instr.row (.andReg 0 0), Instr.row (.xorReg 0 0),
    Instr.row (.addReg 0 0), Instr.row (.subReg 0 0), Instr.row (.shrReg 0 0), Instr.row (.subnReg 0 0),
    Instr.row (.shlReg 0 0), Instr.row (.sneReg 0 0)] ++
  [Instr.row (.ldI 0), Instr.row (.jpV0 0), Instr.row (.rnd 0 0), Instr.row (.drw 0 0 0), Instr.row (.skp 0),
    Instr.row (.sknp 0)] ++
  [Instr.row (.ldVxDt 0), Instr.row (.ldVxK 0), Instr.row (.ldDtVx 0), Instr.row (.ldStVx 0),
    Instr.row (.addIVx 0), Instr.row (.ldFVx 0), Instr.row (.ldBVx 0), Instr.row (.ldMemVx 0),
    Instr.row (.ldVxMem 0)]

/-- The bits of `w` that a table row of `nbits` bits gives, every bit above them 0, as one instruction word. -/
def tableWord (nbits w : Nat) : Word := BitVec.ofNat 16 (w % 2 ^ nbits)

/-- The instruction the decoder reads from the word that spec/opcode_table.json numbers as `w`. -/
def decodeTableWord (nbits w : Nat) : Option Instr :=
  match decode (wordBytes (tableWord nbits w)) with
  | .ok (i, _) => some i
  | .error _ => none

end Sys2Proof
end

