-- ==== Sys2Proof/Machine/State.lean ====
section
/-! DEFINITION. The architectural state (10_state.md), its reset value (R36), and the reasons a step or a port
can stop. Plain data throughout. -/

namespace Sys2Proof.Machine

/-- The halt kinds "are exactly four" (60_exceptions.md R220). -/
inductive HaltKind where
  | outOfBounds
  | stackOverflow
  | stackUnderflow
  | unknownOpcode
deriving DecidableEq, Repr

/-- The halt record `(kind, halt_pc, opv, halt_op)` (R224). `op = none` is `opv = 0` with `halt_op = 0`. -/
structure HaltRecord where
  kind : HaltKind
  haltPc : Word
  op : Option Word
deriving DecidableEq, Repr

/-- "{Running, Halted(reason)}" (10_state.md R34; 40_engine.md R102). -/
inductive RunState where
  | running
  | halted (r : HaltRecord)
deriving DecidableEq, Repr

/-- Which row a slot event names: "DRW, SKP, SKNP, or F with its `kk`" (46_collaborator_slots.md R200). -/
inductive SlotKind where
  | drw
  | skp
  | sknp
  | f (kk : Byte)
deriving DecidableEq, Repr

/-- The record of a slot event (R200): every field of the word, both register values, and I. -/
structure SlotRecord where
  kind : SlotKind
  opcode : Word
  pc : Word
  x : Nibble
  y : Nibble
  n : Nibble
  kk : Byte
  vx : Byte
  vy : Byte
  i : Word
deriving DecidableEq, Repr

/-- What a step outputs to a collaborator (40_engine.md R112). -/
inductive Event where
  | displayClear
  | slot (r : SlotRecord)
deriving DecidableEq, Repr

/-- The 4096-byte memory as the cells that differ from what an unlisted address reads as (`Memory.unlisted`),
addresses strictly rising (`Memory.wf`). -/
abbrev Memory := List Host.Cell

/-- The state: the spec's own (10_state.md: "exactly" these), then four fields of the MODEL, which carry what
the spec calls the parameters, the inputs and the outputs of a step (notes/assumptions 1, 4, 5). -/
structure State where
  /-- V0..VF; VF is also the flag register (R20, R21) -/
  v : Vector Byte 16
  /-- the index register I (R25) -/
  i : Word
  /-- the program counter (R26) -/
  pc : Word
  /-- the return addresses held, the last pushed at the end; SP is the length (R30, R33) -/
  stack : List Word
  /-- memory_4k_byte (20_memory.md R50) -/
  mem : Memory
  /-- the run state with its halt record (R34) -/
  run : RunState
  /-- MODEL: the parameters of 00_scope.md R8, which no step writes -/
  config : Config
  /-- MODEL: the random byte of the step about to be taken (40_engine.md R101), a free value -/
  rnd : Byte
  /-- MODEL: how many random bytes have been used -/
  draws : Nat
  /-- MODEL: the event the last step output, if any (R101, R112) -/
  event : Option Event
deriving DecidableEq, Repr

/-- Why a port cannot answer. No step ends in a fault: every failure of the hardware is a halt, which is a next
state (60_exceptions.md R223). -/
inductive Fault where
  /-- Raised by the memory ports `memRead` and `memWrite` for an address above 0x0FFF (20_memory.md R51). The
  fetch turns it into the OutOfBounds halt (40_engine.md R105). Safe. -/
  | outOfBounds (addr : Nat)
deriving DecidableEq, Repr

/-- Why the model gives no meaning. -/
inductive Refusal where
  /-- Raised by an arm of `exec` whose instruction has no meaning yet (no arm is). Safe. -/
  | notModelled (mnemonic : String)
  /-- Raised by a slot under `SLOT_POLICY = refuse`: the verdict REFUSED of 46_collaborator_slots.md R213,
  never under the default policy. Safe. -/
  | slotRefused (opcode : Word)
  /-- Raised by `Session.move`, never by `step`: a `load_program` outside the window that
  70_reset_and_hazards.md R252 gives it ("The host has no other move", R253). Safe. -/
  | loadOutsideWindow
deriving DecidableEq, Repr

/-- Reset of a machine with the parameters `c` (10_state.md R36; 70_reset_and_hazards.md R250). -/
def State.resetWith (c : Config) : State where
  v := Vector.replicate 16 0x00
  i := 0x0000
  pc := 0x0200
  stack := []
  mem := []
  run := .running
  config := c
  rnd := Config.randomByte 0
  draws := 0
  event := none

/-- The machine right after reset, with the default parameters (R8, R36). -/
def State.reset : State := State.resetWith Config.default

end Sys2Proof.Machine
end

