-- ==== Sys2Proof/Machine/Flags.lean ====
section
/-! DEFINITION. Every flag computation (44_alu_register.md R161): the value port F writes to VF. -/

namespace Sys2Proof.Machine

/-- The flag is "always 0x00 or 0x01" (R160). -/
def flagByte (b : Bool) : Byte := if b then 0x01 else 0x00

/-- ADD: 1 if `a + b > 255` on the exact sum, else 0 (R161, R166). -/
def carryFlag (a b : Byte) : Byte := flagByte (255 < a.toNat + b.toNat)

/-- SUB and SUBN: 1 if minuend `>=` subtrahend, equality included, else 0 (R161, R167, R169). -/
def noBorrowFlag (minuend subtrahend : Byte) : Byte := flagByte (subtrahend.toNat ≤ minuend.toNat)

/-- SHR: `a & 1`, the bit shifted out (R161, R168). -/
def shiftRightFlag (a : Byte) : Byte := a &&& 0x01

/-- SHL: `(a >> 7) & 1`, the bit shifted out (R161, R170). -/
def shiftLeftFlag (a : Byte) : Byte := (a >>> 7) &&& 0x01

end Sys2Proof.Machine
end

