-- ==== Sys2Proof/Machine/Ops.lean ====
section
/-! DEFINITION. The named operations over the state: memory and its ports, the program load, the register file,
the call stack, the fetch, the commit of a completing cycle, halt entry, and what the host reads and resets. -/

namespace Sys2Proof.Machine

/-! ### memory_4k_byte (20_memory.md) -/

/-- What an address that the memory list does not mention reads as: the reset contents, which are the font
below 0x050 and `INIT_FILL` above (10_state.md R36; R54). -/
def Memory.unlisted (c : Config) (a : Nat) : Byte :=
  if h : a < 80 then c.font[a] else c.initFill

/-- The byte at an address. -/
def Memory.read (c : Config) : Memory → Nat → Byte
  | [], a => Memory.unlisted c a
  | (k, b) :: rest, a => if k = a then b else Memory.read c rest a

/-- A cell in front of a memory, or nothing where it would repeat what the address reads as unlisted. -/
def Memory.cons (c : Config) (a : Nat) (b : Byte) (rest : Memory) : Memory :=
  if b = Memory.unlisted c a then rest else (a, b) :: rest

/-- Store one byte, keeping the canonical form. -/
def Memory.write (c : Config) : Memory → Nat → Byte → Memory
  | [], a, b => Memory.cons c a b []
  | (k, d) :: rest, a, b =>
    if a < k then Memory.cons c a b ((k, d) :: rest)
    else if a = k then Memory.cons c a b rest
    else (k, d) :: Memory.write c rest a b

/-- Every address is at least `lo`, in the address space, above the one before it, and no cell repeats what its
address reads as unlisted. -/
def Memory.wfFrom (c : Config) : Nat → Memory → Bool
  | _, [] => true
  | lo, (k, b) :: rest =>
    decide (lo ≤ k) && decide (k < 0x1000) && decide (b ≠ Memory.unlisted c k) && Memory.wfFrom c (k + 1) rest

/-- The canonical form of a memory. -/
def Memory.wf (c : Config) (m : Memory) : Bool := Memory.wfFrom c 0 m

/-- The state's byte at an address. -/
def readByte (s : State) (a : Nat) : Byte := Memory.read s.config s.mem a

/-- `MemRead(addr, 1)`: fails OutOfBounds above 0x0FFF (R51). A read has no side effect. -/
def memRead (s : State) (addr : Word) : Except Fault Byte :=
  if 0x0FFF < addr.toNat then .error (.outOfBounds addr.toNat) else .ok (readByte s addr.toNat)

/-- `MemWrite(addr, 1, v)`: fails OutOfBounds above 0x0FFF (R51). No instruction uses it (R56). -/
def memWrite (s : State) (addr : Word) (b : Byte) : Except Fault State :=
  if 0x0FFF < addr.toNat then .error (.outOfBounds addr.toNat)
  else .ok { s with mem := Memory.write s.config s.mem addr.toNat b }

/-- Store bytes at consecutive addresses from `a`. -/
def Memory.writeAll (c : Config) (m : Memory) (a : Nat) : List Byte → Memory
  | [] => m
  | b :: rest => Memory.writeAll c (Memory.write c m a b) (a + 1) rest

/-- `load_program(bytes)`: from 0x200, "truncating silently if the sequence would exceed the memory ceiling",
so at most 3584 bytes, and no other byte (R58). -/
def loadProgram (image : List Byte) (s : State) : State :=
  { s with mem := Memory.writeAll s.config s.mem 0x200 (image.take 3584) }

/-- A word stored where the fetch at the pc reads it (R52). A pc from which no fetch succeeds has no such
place: then nothing is stored. -/
def placeWord (s : State) (w : Word) : State :=
  if 0x0FFE < s.pc.toNat then s
  else { s with mem := Memory.writeAll s.config s.mem s.pc.toNat (wordBytes w) }

/-! ### register_file_16x8 (10_state.md R20, R22) -/

/-- Read ports A, B and Z: `V[x]`. -/
def readV (s : State) (x : Nibble) : Byte := s.v[x.toNat]'x.lt_sixteen

/-- Result write port W: `V[x] <- b`. -/
def setV (s : State) (x : Nibble) (b : Byte) : State := { s with v := s.v.set x.toNat b x.lt_sixteen }

/-- Index register port: `I <- w`. -/
def setI (s : State) (w : Word) : State := { s with i := w }

/-- The pc loads a new value (40_engine.md R106). -/
def setPc (s : State) (w : Word) : State := { s with pc := w }

/-- The call stack after a push or a pop. -/
def setStack (s : State) (l : List Word) : State := { s with stack := l }

/-- The step's output event (40_engine.md R101). -/
def setEvent (s : State) (e : Option Event) : State := { s with event := e }

/-- The FSM's run state (10_state.md R34). -/
def setRun (s : State) (r : RunState) : State := { s with run := r }

/-- The random byte of the next step is `b` (40_engine.md R101): the host's input. -/
def setRnd (s : State) (b : Byte) : State := { s with rnd := b }

/-- The step's random byte has been used: the next use gets a fresh one (45_index_jump_random.md R192). -/
def useRnd (s : State) : State := { s with rnd := Config.randomByte (s.draws + 1), draws := s.draws + 1 }

/-! ### call_stack_16deep (10_state.md R30 to R33) -/

/-- The depth `SP`. -/
def depth (s : State) : Nat := s.stack.length

/-- `push(v)` "fails with StackOverflow when `SP = 16`", else `S[SP] <- v; SP <- SP + 1` (R31). -/
def push (s : State) (w : Word) : Except HaltKind (List Word) :=
  if 16 ≤ depth s then .error .stackOverflow else .ok (s.stack ++ [w])

/-- `pop()` "fails with StackUnderflow when `SP = 0`", else `SP <- SP - 1` and `S[SP]` (R32). -/
def pop (s : State) : Except HaltKind (Word × List Word) :=
  match s.stack.getLast? with
  | none => .error .stackUnderflow
  | some w => .ok (w, s.stack.dropLast)

/-! ### fetch_unit (40_engine.md R105) -/

/-- The two bytes at the pc and the pc + 1, big-endian; an error when either is out of bounds, which is when
the pc is above 0x0FFE (R105). -/
def fetch (s : State) : Except Fault Word :=
  match memRead s s.pc, memRead s (s.pc + 1) with
  | .ok hi, .ok lo => .ok (wordOfBytes hi lo)
  | .error f, _ => .error f
  | .ok _, .error f => .error f

/-! ### program_counter and commit (40_engine.md R107, R109, R115) -/

/-- `zext_16(v)` of a 12-bit field (R72). -/
def zextAddr (nnn : Addr) : Word := nnn.setWidth 16

/-- `zext_16(v)` of a register value (R107). -/
def zextByte (b : Byte) : Word := b.setWidth 16

/-- The next-pc selector's five sources (R107). -/
inductive NextPc where
  /-- `SEQ` -/
  | seq
  /-- `SKIP` -/
  | skip
  /-- `ABS` -/
  | abs (nnn : Addr)
  /-- `REL0` -/
  | rel0 (nnn : Addr)
  /-- `RET`, with the popped value -/
  | ret (w : Word)
deriving DecidableEq, Repr

/-- The value of each source, all additions 16-bit (R107), read from the start of the cycle. -/
def nextPc (s : State) : NextPc → Word
  | .seq => s.pc + 2
  | .skip => s.pc + 4
  | .abs nnn => zextAddr nnn
  | .rel0 nnn => zextAddr nnn + zextByte (readV s 0x0)
  | .ret w => w

/-- One write of a cycle (R109). -/
inductive Write where
  /-- flag write port F, always to register 15 -/
  | flag (b : Byte)
  /-- result write port W -/
  | v (x : Nibble) (b : Byte)
  /-- the index register port -/
  | i (w : Word)
  /-- one push or pop -/
  | stack (l : List Word)
  /-- the MODEL's: the step's random byte is used up -/
  | useRnd
deriving DecidableEq, Repr

/-- The effect of one write. -/
def applyWrite (s : State) : Write → State
  | .flag b => setV s 0xF b
  | .v x b => setV s x b
  | .i w => setI s w
  | .stack l => setStack s l
  | .useRnd => useRnd s

/-- The writes "in the order the instruction's pseudocode lists them" (R109), so that a later write to the same
register wins (00_scope.md R11). -/
def applyWrites (s : State) : List Write → State
  | [] => s
  | w :: ws => applyWrites (applyWrite s w) ws

/-- How every step of this machine ends. -/
abbrev Result := Host.Outcome State Fault Refusal

/-- A cycle that completes: `Ok(writes, next, ev)` committed as one (R115). -/
def complete (s : State) (ws : List Write) (n : NextPc) (ev : Option Event) : Result :=
  .next (setEvent (setPc (applyWrites s ws) (nextPc s n)) ev)

/-! ### Halt entry (60_exceptions.md R223): the one trap, and no return from it (R227) -/

/-- The FSM enters Halted with the record; nothing else changes and no event is emitted (R223, 40_engine.md R110). -/
def haltEntry (s : State) (kind : HaltKind) (op : Option Word) : State :=
  setEvent (setRun s (.halted { kind := kind, haltPc := s.pc, op := op })) none

/-- An instruction's own check fails: the record holds its word, which is the fetched one (R222). -/
def failOn (s : State) (kind : HaltKind) (i : Instr) : Result := .next (haltEntry s kind (some (encode i)))

/-- A step requested while Halted "changes nothing, emits no event" (40_engine.md R111). -/
def haltedStep (s : State) : State := setEvent s none

/-! ### What the host reads and does (10_state.md R34; 70_reset_and_hazards.md R252) -/

/-- The code of a kind in `CORE_STATUS.KIND` (60_exceptions.md R220). -/
def HaltKind.code : HaltKind → BitVec 3
  | .outOfBounds => 1
  | .stackOverflow => 2
  | .stackUnderflow => 3
  | .unknownOpcode => 4

/-- `HALT_OP ++ HALT_PC ++ reserved ++ OPV ++ KIND ++ RUN`, from bit 39 down to bit 0 (10_state.md R34). -/
def packStatus (haltOp haltPc : Word) (opv : BitVec 1) (kind : BitVec 3) (run : BitVec 1) : BitVec 40 :=
  haltOp ++ haltPc ++ (0 : BitVec 3) ++ opv ++ kind ++ run

/-- The read-only status register `CORE_STATUS` (10_state.md R34). -/
def coreStatus (s : State) : BitVec 40 :=
  match s.run with
  | .running => packStatus 0 0 0 0 0
  | .halted r =>
    match r.op with
    | some w => packStatus w r.haltPc 1 r.kind.code 1
    | none => packStatus 0 r.haltPc 0 r.kind.code 1

/-- The host's reset (R250, R252): "every piece of state" to its reset value. The parameters are the machine's
and the random bytes the host's, so neither starts over (notes/assumptions 20). -/
def hostReset (s : State) : State :=
  { State.resetWith s.config with rnd := s.rnd, draws := s.draws }

end Sys2Proof.Machine
end

