-- ==== Sys2Proof/Machine/Operands.lean ====
section
/-! DEFINITION. Every operand form (30_encoding.md R72; 10_state.md R22): all are read from the state at the
start of the cycle (00_scope.md R11). The immediates `kk`, `nnn` and `n` are the instruction's own fields. -/

namespace Sys2Proof.Machine

/-- Read port A: `V[x]`, the ALU's input `a` (44_alu_register.md R160). -/
def operandX (s : State) (x : Nibble) : Byte := readV s x

/-- Read port B: `V[y]`, the ALU's input `b` of the register forms (R160). -/
def operandY (s : State) (y : Nibble) : Byte := readV s y

/-- The step's random byte (45_index_jump_random.md R192). -/
def operandRnd (s : State) : Byte := s.rnd

/-- The return address a call pushes: `pc + 2` (41_system_flow.md R133). -/
def returnAddress (s : State) : Word := s.pc + 2

end Sys2Proof.Machine
end

