-- ==== Sys2Proof/Machine/Alu.lean ====
section
/-! DEFINITION. alu_8bit (44_alu_register.md R160, R161) and the class-8 instructions (R162 to R170). -/

namespace Sys2Proof.Machine

/-- The ALU functions (R161). -/
inductive AluFn where
  | passB | or | and | xor | add | sub | shr | subn | shl | addNF | eq
deriving DecidableEq, Repr

/-- The `fn` codes: "for class 8 the code equals the opcode's `n`" (R161). -/
def AluFn.code : AluFn → Nibble
  | .passB => 0x0
  | .or => 0x1
  | .and => 0x2
  | .xor => 0x3
  | .add => 0x4
  | .sub => 0x5
  | .shr => 0x6
  | .subn => 0x7
  | .shl => 0xE
  | .addNF => 0x8
  | .eq => 0x9

/-- The ALU's outputs (R160). `res = none` and `flag = none` are the dashes of R161: nothing is written. -/
structure AluOut where
  res : Option Byte
  flag : Option Byte
  eq : Bool
deriving DecidableEq, Repr

/-- `res` of R161. -/
def aluRes (fn : AluFn) (a b : Byte) : Option Byte :=
  match fn with
  | .passB => some b
  | .or => some (a ||| b)
  | .and => some (a &&& b)
  | .xor => some (a ^^^ b)
  | .add => some (a + b)
  | .sub => some (a - b)
  | .shr => some (a >>> 1)
  | .subn => some (b - a)
  | .shl => some (a <<< 1)
  | .addNF => some (a + b)
  | .eq => none

/-- `flag` of R161, none where `fe = 0`. -/
def aluFlag (fn : AluFn) (a b : Byte) : Option Byte :=
  match fn with
  | .add => some (carryFlag a b)
  | .sub => some (noBorrowFlag a b)
  | .shr => some (shiftRightFlag a)
  | .subn => some (noBorrowFlag b a)
  | .shl => some (shiftLeftFlag a)
  | .passB | .or | .and | .xor | .addNF | .eq => none

/-- The combinational block (R160); `eq` is 1 when `a = b`. -/
def alu (fn : AluFn) (a b : Byte) : AluOut :=
  { res := aluRes fn a b, flag := aluFlag fn a b, eq := a == b }

/-- The output `fe`: "1 when the function writes VF" (R160). -/
def AluOut.fe (o : AluOut) : Bool := o.flag.isSome

/-- Port F's write, then port W's, so that with `x = 0xF` the result wins (10_state.md R22). -/
def aluWrites (x : Nibble) (o : AluOut) : List Write :=
  (o.flag.map Write.flag).toList ++ (o.res.map (Write.v x)).toList

/-- An instruction that writes what the ALU answers and advances by 2. -/
def completeAlu (s : State) (fn : AluFn) (x : Nibble) (b : Byte) : Result :=
  complete s (aluWrites x (alu fn (operandX s x) b)) .seq none

/-- LD Vx, Vy (R162). -/
def execLdReg (x y : Nibble) (s : State) : Result := completeAlu s .passB x (operandY s y)

/-- OR Vx, Vy (R163). -/
def execOrReg (x y : Nibble) (s : State) : Result := completeAlu s .or x (operandY s y)

/-- AND Vx, Vy (R164). -/
def execAndReg (x y : Nibble) (s : State) : Result := completeAlu s .and x (operandY s y)

/-- XOR Vx, Vy (R165). -/
def execXorReg (x y : Nibble) (s : State) : Result := completeAlu s .xor x (operandY s y)

/-- ADD Vx, Vy (R166). -/
def execAddReg (x y : Nibble) (s : State) : Result := completeAlu s .add x (operandY s y)

/-- SUB Vx, Vy (R167). -/
def execSubReg (x y : Nibble) (s : State) : Result := completeAlu s .sub x (operandY s y)

/-- SHR Vx, Vy (R168): the source is `V[x]`, `y` is not used. -/
def execShrReg (x y : Nibble) (s : State) : Result := completeAlu s .shr x (operandY s y)

/-- SUBN Vx, Vy (R169). -/
def execSubnReg (x y : Nibble) (s : State) : Result := completeAlu s .subn x (operandY s y)

/-- SHL Vx, Vy (R170): the source is `V[x]`, `y` is not used. -/
def execShlReg (x y : Nibble) (s : State) : Result := completeAlu s .shl x (operandY s y)

end Sys2Proof.Machine
end

