-- ==== Sys2Proof/Machine/IndexJumpRandom.lean ====
section
/-! DEFINITION. LD I, JP V0 and RND (45_index_jump_random.md R190 to R192). -/

namespace Sys2Proof.Machine

/-- LD I, nnn (R190): not checked against memory bounds. -/
def execLdI (nnn : Addr) (s : State) : Result := complete s [.i (zextAddr nnn)] .seq none

/-- JP V0, nnn (R191): "16-bit, not masked to 12 bits". -/
def execJpV0 (nnn : Addr) (s : State) : Result := complete s [] (.rel0 nnn) none

/-- RND Vx, kk (R192): the step's random byte, masked; the byte is then used up. -/
def execRnd (x : Nibble) (kk : Byte) (s : State) : Result :=
  complete s [.v x (operandRnd s &&& kk), .useRnd] .seq none

end Sys2Proof.Machine
end

