-- ==== Sys2Proof/Machine/RegisterImmediate.lean ====
section
/-! DEFINITION. LD Vx, kk and ADD Vx, kk (43_register_immediate.md R150, R151). -/

namespace Sys2Proof.Machine

/-- LD Vx, kk (R150). -/
def execLdImm (x : Nibble) (kk : Byte) (s : State) : Result := complete s [.v x kk] .seq none

/-- ADD Vx, kk (R151): the ALU's ADDNF, no flag. -/
def execAddImm (x : Nibble) (kk : Byte) (s : State) : Result := completeAlu s .addNF x kk

end Sys2Proof.Machine
end

