-- ==== Sys2Proof/Machine/Skips.lean ====
section
/-! DEFINITION. The conditional skips (42_skips.md R140 to R143). The compare is the ALU's EQ function. -/

namespace Sys2Proof.Machine

/-- A skip adds 4 to the pc when its condition holds and 2 otherwise, and writes no register. -/
def completeSkip (s : State) (taken : Bool) : Result :=
  complete s [] (if taken then .skip else .seq) none

/-- SE Vx, kk (R140). -/
def execSeImm (x : Nibble) (kk : Byte) (s : State) : Result :=
  completeSkip s (alu .eq (operandX s x) kk).eq

/-- SNE Vx, kk (R141). -/
def execSneImm (x : Nibble) (kk : Byte) (s : State) : Result :=
  completeSkip s (!(alu .eq (operandX s x) kk).eq)

/-- SE Vx, Vy (R142). -/
def execSeReg (x y : Nibble) (s : State) : Result :=
  completeSkip s (alu .eq (operandX s x) (operandY s y)).eq

/-- SNE Vx, Vy (R143). -/
def execSneReg (x y : Nibble) (s : State) : Result :=
  completeSkip s (!(alu .eq (operandX s x) (operandY s y)).eq)

end Sys2Proof.Machine
end

