-- ==== Sys2Proof/Machine/Slots.lean ====
section
/-! DEFINITION. The collaborator slots (46_collaborator_slots.md R200 to R213): one event and a pc advance. -/

namespace Sys2Proof.Machine

/-- "every field of the word, both register values, and I, whether or not the row uses them" (R200). -/
def slotRecord (s : State) (kind : SlotKind) (w : Word) : SlotRecord where
  kind := kind
  opcode := w
  pc := s.pc
  x := xOf w
  y := yOf w
  n := nOf w
  kk := kkOf w
  vx := operandX s (xOf w)
  vy := operandY s (yOf w)
  i := s.i

/-- The common slot behaviour under either policy (R200, R213). -/
def completeSlot (s : State) (kind : SlotKind) (w : Word) : Result :=
  match s.config.slotPolicy with
  | .emitAndAdvance => complete s [] .seq (some (.slot (slotRecord s kind w)))
  | .refuse => .refused (.slotRefused w)

/-- DRW Vx, Vy, n (R201): neither reads memory nor writes VF. -/
def execDrw (x y n : Nibble) (s : State) : Result := completeSlot s .drw (encode (.drw x y n))

/-- SKP Vx (R202): never skips. -/
def execSkp (x : Nibble) (s : State) : Result := completeSlot s .skp (encode (.skp x))

/-- SKNP Vx (R203): never skips. -/
def execSknp (x : Nibble) (s : State) : Result := completeSlot s .sknp (encode (.sknp x))

/-- LD Vx, DT (R204): leaves `V[x]` unchanged. -/
def execLdVxDt (x : Nibble) (s : State) : Result := completeSlot s (.f 0x07) (encode (.ldVxDt x))

/-- LD Vx, K (R205): neither waits nor writes. -/
def execLdVxK (x : Nibble) (s : State) : Result := completeSlot s (.f 0x0A) (encode (.ldVxK x))

/-- LD DT, Vx (R206). -/
def execLdDtVx (x : Nibble) (s : State) : Result := completeSlot s (.f 0x15) (encode (.ldDtVx x))

/-- LD ST, Vx (R207). -/
def execLdStVx (x : Nibble) (s : State) : Result := completeSlot s (.f 0x18) (encode (.ldStVx x))

/-- ADD I, Vx (R208): leaves I unchanged. -/
def execAddIVx (x : Nibble) (s : State) : Result := completeSlot s (.f 0x1E) (encode (.addIVx x))

/-- LD F, Vx (R209): leaves I unchanged. -/
def execLdFVx (x : Nibble) (s : State) : Result := completeSlot s (.f 0x29) (encode (.ldFVx x))

/-- LD B, Vx (R210): writes no memory. -/
def execLdBVx (x : Nibble) (s : State) : Result := completeSlot s (.f 0x33) (encode (.ldBVx x))

/-- LD [I], Vx (R211): writes no memory. -/
def execLdMemVx (x : Nibble) (s : State) : Result := completeSlot s (.f 0x55) (encode (.ldMemVx x))

/-- LD Vx, [I] (R212): writes no register. -/
def execLdVxMem (x : Nibble) (s : State) : Result := completeSlot s (.f 0x65) (encode (.ldVxMem x))

/-- `SLOT_F(kk)` for a word without a row in R73: a slot all the same when `F_SLOT_SET` holds its `kk` (R77, R79). -/
def execSlotF (w : Word) (s : State) : Result := completeSlot s (.f (kkOf w)) w

end Sys2Proof.Machine
end

