-- ==== Sys2Proof/Machine/SystemFlow.lean ====
section
/-! DEFINITION. CLS, RET, JP and CALL (41_system_flow.md R130 to R133). -/

namespace Sys2Proof.Machine

/-- CLS (R130): the event DisplayClear, nothing else. -/
def execCls (s : State) : Result := complete s [] .seq (some .displayClear)

/-- RET (R131): pop into the pc, or the StackUnderflow halt. -/
def execRet (s : State) : Result :=
  match pop s with
  | .error k => failOn s k .ret
  | .ok (w, rest) => complete s [.stack rest] (.ret w) none

/-- JP nnn (R132). -/
def execJp (nnn : Addr) (s : State) : Result := complete s [] (.abs nnn) none

/-- CALL nnn (R133): push `pc + 2`, then jump, or the StackOverflow halt. -/
def execCall (nnn : Addr) (s : State) : Result :=
  match push s (returnAddress s) with
  | .error k => failOn s k (.call nnn)
  | .ok l => complete s [.stack l] (.abs nnn) none

end Sys2Proof.Machine
end

