-- ==== Sys2Proof/Machine/Step.lean ====
section
/-! DEFINITION. The step function (40_engine.md R115). -/

namespace Sys2Proof.Machine

/-- `step(s, rnd)` of R115: `rnd` is `s.rnd` and the event is the next state's `event` (notes/assumptions 4, 5).
The fetch bound is checked first, then the classification, then the instruction's own check (60_exceptions.md R226). -/
def step (s : State) : Host.Outcome State Fault Refusal :=
  match s.run with
  | .halted _ => .next (haltedStep s)
  | .running =>
    match fetch s with
    | .error _ => .next (haltEntry s .outOfBounds none)
    | .ok w =>
      match classify s.config.fSlotSet w with
      | .unknown => .next (haltEntry s .unknownOpcode (some w))
      | .slotF _ => execSlotF w s
      | .instr i => exec i s

/-- The table word stored where the next step fetches (notes/assumptions 14). -/
def State.withFetchWord (s : State) (nbits w : Nat) : State := placeWord s (tableWord nbits w)

end Sys2Proof.Machine
end

