-- ==== Sys2Proof/Machine/Assembler.lean ====
section
/-! DEFINITION. The assembler syntax (30_encoding.md R81, R82): "Each mnemonic form assembles to exactly one
word". A line is a list of characters; "the binary encoding is normative and the text is not" (92_eei_decisions.md
D22), and what R81 does not fix of the text is notes/assumptions 19. -/

namespace Sys2Proof.Machine

/-! ### From a line's tokens to an instruction -/

/-- A `kk` in range (R82). -/
def asmKk (k : Nat) : Option Byte := if kkFits k then some (BitVec.ofNat 8 k) else none

/-- An `nnn` in range (R82). -/
def asmNnn (k : Nat) : Option Addr := if nnnFits k then some (BitVec.ofNat 12 k) else none

/-- An `n` in range (R82). -/
def asmN (k : Nat) : Option Nibble := if nFits k then some (BitVec.ofNat 4 k) else none

/-- LD's forms (R73). -/
def asmLd : List AsmOperand → Option Instr
  | [.v x, .num k] => (asmKk k).map (.ldImm x)
  | [.v x, .v y] => some (.ldReg x y)
  | [.i, .num k] => (asmNnn k).map .ldI
  | [.v x, .dt] => some (.ldVxDt x)
  | [.v x, .k] => some (.ldVxK x)
  | [.dt, .v x] => some (.ldDtVx x)
  | [.st, .v x] => some (.ldStVx x)
  | [.f, .v x] => some (.ldFVx x)
  | [.b, .v x] => some (.ldBVx x)
  | [.memI, .v x] => some (.ldMemVx x)
  | [.v x, .memI] => some (.ldVxMem x)
  | _ => none

/-- ADD's forms (R73). -/
def asmAdd : List AsmOperand → Option Instr
  | [.v x, .num k] => (asmKk k).map (.addImm x)
  | [.v x, .v y] => some (.addReg x y)
  | [.i, .v x] => some (.addIVx x)
  | _ => none

/-- A form with two registers. -/
def asmXy (f : Nibble → Nibble → Instr) : List AsmOperand → Option Instr
  | [.v x, .v y] => some (f x y)
  | _ => none

/-- SHR and SHL: "`SHR Vx` and `SHL Vx` assemble with `y = 0`" (R81). -/
def asmShift (f : Nibble → Nibble → Instr) : List AsmOperand → Option Instr
  | [.v x, .v y] => some (f x y)
  | [.v x] => some (f x 0x0)
  | _ => none

/-- SE and SNE: against an immediate or a register (R73). -/
def asmSkip (imm : Nibble → Byte → Instr) (reg : Nibble → Nibble → Instr) : List AsmOperand → Option Instr
  | [.v x, .num k] => (asmKk k).map (imm x)
  | [.v x, .v y] => some (reg x y)
  | _ => none

/-- A form with one register. -/
def asmX (f : Nibble → Instr) : List AsmOperand → Option Instr
  | [.v x] => some (f x)
  | _ => none

/-- JP's two forms; the register of the second is V0 (R73). -/
def asmJp : List AsmOperand → Option Instr
  | [.num k] => (asmNnn k).map .jp
  | [.v x, .num k] => if x = 0x0 then (asmNnn k).map .jpV0 else none
  | _ => none

/-- CALL's form. -/
def asmCall : List AsmOperand → Option Instr
  | [.num k] => (asmNnn k).map .call
  | _ => none

/-- RND's form. -/
def asmRnd : List AsmOperand → Option Instr
  | [.v x, .num k] => (asmKk k).map (.rnd x)
  | _ => none

/-- DRW's form. -/
def asmDrw : List AsmOperand → Option Instr
  | [.v x, .v y, .num k] => (asmN k).map (.drw x y)
  | _ => none

/-- A form without operands. -/
def asmNullary (i : Instr) : List AsmOperand → Option Instr
  | [] => some i
  | _ => none

/-- The instruction a line names, or a refusal (R81, R82). -/
def assembleLine (l : AsmLine) : Option Instr :=
  match l.mnemonic with
  | .cls => asmNullary .cls l.operands
  | .ret => asmNullary .ret l.operands
  | .jp => asmJp l.operands
  | .call => asmCall l.operands
  | .se => asmSkip .seImm .seReg l.operands
  | .sne => asmSkip .sneImm .sneReg l.operands
  | .ld => asmLd l.operands
  | .add => asmAdd l.operands
  | .or => asmXy .orReg l.operands
  | .and => asmXy .andReg l.operands
  | .xor => asmXy .xorReg l.operands
  | .sub => asmXy .subReg l.operands
  | .shr => asmShift .shrReg l.operands
  | .subn => asmXy .subnReg l.operands
  | .shl => asmShift .shlReg l.operands
  | .rnd => asmRnd l.operands
  | .drw => asmDrw l.operands
  | .skp => asmX .skp l.operands
  | .sknp => asmX .sknp l.operands

/-- The line R73 and R81 write for an instruction. -/
def disassemble : Instr → AsmLine
  | .cls => ⟨.cls, []⟩
  | .ret => ⟨.ret, []⟩
  | .jp nnn => ⟨.jp, [.num nnn.toNat]⟩
  | .call nnn => ⟨.call, [.num nnn.toNat]⟩
  | .seImm x kk => ⟨.se, [.v x, .num kk.toNat]⟩
  | .sneImm x kk => ⟨.sne, [.v x, .num kk.toNat]⟩
  | .seReg x y => ⟨.se, [.v x, .v y]⟩
  | .ldImm x kk => ⟨.ld, [.v x, .num kk.toNat]⟩
  | .addImm x kk => ⟨.add, [.v x, .num kk.toNat]⟩
  | .ldReg x y => ⟨.ld, [.v x, .v y]⟩
  | .orReg x y => ⟨.or, [.v x, .v y]⟩
  | .andReg x y => ⟨.and, [.v x, .v y]⟩
  | .xorReg x y => ⟨.xor, [.v x, .v y]⟩
  | .addReg x y => ⟨.add, [.v x, .v y]⟩
  | .subReg x y => ⟨.sub, [.v x, .v y]⟩
  | .shrReg x y => ⟨.shr, [.v x, .v y]⟩
  | .subnReg x y => ⟨.subn, [.v x, .v y]⟩
  | .shlReg x y => ⟨.shl, [.v x, .v y]⟩
  | .sneReg x y => ⟨.sne, [.v x, .v y]⟩
  | .ldI nnn => ⟨.ld, [.i, .num nnn.toNat]⟩
  | .jpV0 nnn => ⟨.jp, [.v 0x0, .num nnn.toNat]⟩
  | .rnd x kk => ⟨.rnd, [.v x, .num kk.toNat]⟩
  | .drw x y n => ⟨.drw, [.v x, .v y, .num n.toNat]⟩
  | .skp x => ⟨.skp, [.v x]⟩
  | .sknp x => ⟨.sknp, [.v x]⟩
  | .ldVxDt x => ⟨.ld, [.v x, .dt]⟩
  | .ldVxK x => ⟨.ld, [.v x, .k]⟩
  | .ldDtVx x => ⟨.ld, [.dt, .v x]⟩
  | .ldStVx x => ⟨.ld, [.st, .v x]⟩
  | .addIVx x => ⟨.add, [.i, .v x]⟩
  | .ldFVx x => ⟨.ld, [.f, .v x]⟩
  | .ldBVx x => ⟨.ld, [.b, .v x]⟩
  | .ldMemVx x => ⟨.ld, [.memI, .v x]⟩
  | .ldVxMem x => ⟨.ld, [.v x, .memI]⟩

/-! ### From characters to tokens -/

/-- The digits of R81's numbers in the order of their values: the first ten are the decimal ones, and the sixteen
are those of the register names `V0`..`VF`. -/
def digitsUpper : List Char :=
  ['0', '1', '2', '3', '4', '5', '6', '7', '8', '9'] ++ ['A', 'B', 'C', 'D', 'E', 'F']

/-- The same with the lower-case letters, which a hexadecimal number may have (notes/assumptions 19). -/
def digitsLower : List Char :=
  ['0', '1', '2', '3', '4', '5', '6', '7', '8', '9'] ++ ['a', 'b', 'c', 'd', 'e', 'f']

/-- The place of a character in a row of digits, counted from `k`. -/
def placeFrom (c : Char) : Nat → List Char → Option Nat
  | _, [] => none
  | k, d :: ds => if d = c then some k else placeFrom c (k + 1) ds

/-- The value of a digit of a number is its place in either row. -/
def digitValue (c : Char) : Option Nat :=
  match placeFrom c 0 digitsUpper with
  | some d => some d
  | none => placeFrom c 0 digitsLower

/-- The number that digits of a base below 17 write, most significant first; none where one is no digit of that base. -/
def lexDigits (base : Nat) (cs : List Char) : Option Nat :=
  ((cs.mapM digitValue).filter (List.all · (· < base))).map (List.foldl (base * · + ·) 0)

/-- "Numbers are decimal or `0x`-prefixed hexadecimal" (R81). -/
def lexNumber : List Char → Option Nat
  | [] => none
  | ['0', 'x'] => none
  | '0' :: 'x' :: cs => lexDigits 16 cs
  | cs => lexDigits 10 cs

/-- The digit of a register, "written `V0`..`VF`" (R81): its place in the upper-case row. -/
def registerDigit (c : Char) : Option Nibble := (placeFrom c 0 digitsUpper).map (BitVec.ofNat 4)

/-- One operand (R81). -/
def lexOperand : List Char → Option AsmOperand
  | ['I'] => some .i
  | ['D', 'T'] => some .dt
  | ['S', 'T'] => some .st
  | ['K'] => some .k
  | ['F'] => some .f
  | ['B'] => some .b
  | ['[', 'I', ']'] => some .memI
  | ['V', c] => (registerDigit c).map .v
  | cs => (lexNumber cs).map .num

/-- The mnemonic of a line's first word (R73). -/
def lexMnemonic : List Char → Option Mnemonic
  | ['C', 'L', 'S'] => some .cls
  | ['R', 'E', 'T'] => some .ret
  | ['J', 'P'] => some .jp
  | ['C', 'A', 'L', 'L'] => some .call
  | ['S', 'E'] => some .se
  | ['S', 'N', 'E'] => some .sne
  | ['L', 'D'] => some .ld
  | ['A', 'D', 'D'] => some .add
  | ['O', 'R'] => some .or
  | ['A', 'N', 'D'] => some .and
  | ['X', 'O', 'R'] => some .xor
  | ['S', 'U', 'B'] => some .sub
  | ['S', 'H', 'R'] => some .shr
  | ['S', 'U', 'B', 'N'] => some .subn
  | ['S', 'H', 'L'] => some .shl
  | ['R', 'N', 'D'] => some .rnd
  | ['D', 'R', 'W'] => some .drw
  | ['S', 'K', 'P'] => some .skp
  | ['S', 'K', 'N', 'P'] => some .sknp
  | _ => none

/-- The part before the first separator, and what follows it if there is one. -/
def cutAt (sep : Char) : List Char → List Char × Option (List Char)
  | [] => ([], none)
  | c :: cs => if c = sep then ([], some cs) else ((c :: (cutAt sep cs).1), (cutAt sep cs).2)

/-- Spaces carry no meaning around an operand. -/
def trimSpaces (cs : List Char) : List Char :=
  ((cs.dropWhile (· = ' ')).reverse.dropWhile (· = ' ')).reverse

/-- The comma-separated operands; `fuel` bounds their number. -/
def lexOperands : Nat → List Char → Option (List AsmOperand)
  | 0, _ => none
  | fuel + 1, cs =>
    match lexOperand (trimSpaces (cutAt ',' cs).1), (cutAt ',' cs).2 with
    | some o, none => some [o]
    | some o, some rest => (lexOperands fuel rest).map (o :: ·)
    | none, _ => none

/-- `MNEMONIC op1, op2, op3` (R81): no form has more than three operands. -/
def lexLine (cs : List Char) : Option AsmLine :=
  match lexMnemonic (cutAt ' ' cs).1, (cutAt ' ' cs).2 with
  | some m, none => some ⟨m, []⟩
  | some m, some rest => (lexOperands 3 rest).map (⟨m, ·⟩)
  | none, _ => none

/-- The word a line of text assembles to, or a refusal (R81, R82). -/
def assemble (cs : List Char) : Option Word := ((lexLine cs).bind assembleLine).map encode

end Sys2Proof.Machine
end

