-- ==== Sys2Proof/Machine/HostPort.lean ====
section
/-! DEFINITION. What the host can do to the core (70_reset_and_hazards.md R252, R253), as moves on a session: the
core's state and how far the host's protocol has come. -/

namespace Sys2Proof.Machine

/-- The external step interface with its random byte (40_engine.md R101): `step(s, rnd) = (s', ev)`, `ev` being
the next state's `event`. -/
def hostStep (b : Byte) (s : State) : Result := step (setRnd s b)

/-- Where a session stands (R252): the program load is for "after reset, before the first step, at most once". -/
inductive HostPhase where
  | afterReset
  | loaded
  | stepped
deriving DecidableEq, Repr

/-- The four interactions of R252. -/
inductive HostMove where
  | reset
  | loadProgram (image : List Byte)
  | step (rnd : Byte)
  | readStatus
deriving DecidableEq, Repr

/-- A core and the phase of the host's protocol. The phase is the host's, not the core's. -/
structure Session where
  phase : HostPhase
  core : State
deriving DecidableEq, Repr

/-- A session begins with a reset of a machine with the parameters `c` (R250). -/
def Session.boot (c : Config) : Session := { phase := .afterReset, core := State.resetWith c }

/-- What a read of `CORE_STATUS` returns (R252). -/
def Session.status (h : Session) : BitVec 40 := coreStatus h.core

/-- One move of the host (R252). "The host has no other move" (R253): a load outside its window is refused. -/
def Session.move (h : Session) : HostMove → Host.Outcome Session Fault Refusal
  | .reset => .next { phase := .afterReset, core := hostReset h.core }
  | .loadProgram image =>
    match h.phase with
    | .afterReset => .next { phase := .loaded, core := Machine.loadProgram image h.core }
    | .loaded => .refused .loadOutsideWindow
    | .stepped => .refused .loadOutsideWindow
  | .step b =>
    match hostStep b h.core with
    | .next t => .next { phase := .stepped, core := t }
    | .fault f => .fault f
    | .refused r => .refused r
  | .readStatus => .next h

end Sys2Proof.Machine
end

