-- ==== Sys2Proof/Safety.lean ====
section
/-! DEFINITION. What claims are stated in terms of: the invariant of the machine, the states a run reaches, the
frames of instructions, and a run that has not halted. -/

namespace Sys2Proof.Machine

/-- The halted record names the pc that the core has kept (60_exceptions.md R223: "The pc keeps the address of
the failing instruction"), and holds no opcode exactly for OutOfBounds (R221, R222). -/
def RunState.consistent (r : RunState) (pc : Word) : Prop :=
  match r with
  | .running => True
  | .halted h => h.haltPc = pc ∧ (h.op = none ↔ h.kind = .outOfBounds)

/-- What every step keeps, and every reset establishes. -/
structure Inv (s : State) : Prop where
  /-- the memory list is in its canonical form -/
  mem : Memory.wf s.config s.mem = true
  /-- the depth counter is in 0..16 (10_state.md R30) -/
  depth : s.stack.length ≤ 16
  /-- "A popped value is a pushed `pc + 2 <= 0x1000`" (R29) -/
  entries : ∀ w ∈ s.stack, w.toNat ≤ 0x1000
  /-- "every reachable pc value is at most 0x10FE" (R29) -/
  pc : s.pc.toNat ≤ 0x10FE
  /-- "bits 15–12 of I are always 0" (R25) -/
  i : s.i.toNat ≤ 0x0FFF
  /-- the halt record (60_exceptions.md R221 to R223) -/
  run : s.run.consistent s.pc

/-- The sessions a host can bring about that keeps to 70_reset_and_hazards.md R252: a machine is reset with some
parameters, and then come the host's moves in any number and order, a reset in the middle of a run among them, each
where R252 allows it (`Session.move` answers no next session elsewhere). -/
inductive Session.Reachable : Session → Prop where
  | boot (c : Config) : Session.Reachable (Session.boot c)
  | move (h h' : Session) (m : HostMove) (hr : Session.Reachable h) (hm : h.move m = .next h') :
      Session.Reachable h'

/-- The states of the runs in which the host keeps to R252 ("A claim about a run holds only for runs in which the host
keeps to rule R252", R253): the cores of those sessions. -/
def Reachable (s : State) : Prop := ∃ h : Session, h.Reachable ∧ h.core = s

/-- Every state component that no instruction but its own writer changes, the registers and I and the stack
apart: memory (every byte as `readByte` reads it), the parameters and the run state. -/
structure SameMachine (s t : State) : Prop where
  mem : ∀ a, readByte t a = readByte s a
  config : t.config = s.config
  run : t.run = s.run

/-- The frame of an instruction that writes the registers in `written` and nothing else but the pc and the
step's event: every other register, I, the stack, memory, the run state and the random input are kept. -/
structure FrameV (s t : State) (written : List Nibble) : Prop extends SameMachine s t where
  v : ∀ r, r ∉ written → readV t r = readV s r
  i : t.i = s.i
  stack : t.stack = s.stack
  rnd : t.rnd = s.rnd
  draws : t.draws = s.draws

/-- The twelve collaborator slots of the opcode map with their kinds (46_collaborator_slots.md R201 to R212). -/
def slotKind : Instr → Option SlotKind
  | .drw _ _ _ => some .drw
  | .skp _ => some .skp
  | .sknp _ => some .sknp
  | .ldVxDt _ => some (.f 0x07)
  | .ldVxK _ => some (.f 0x0A)
  | .ldDtVx _ => some (.f 0x15)
  | .ldStVx _ => some (.f 0x18)
  | .addIVx _ => some (.f 0x1E)
  | .ldFVx _ => some (.f 0x29)
  | .ldBVx _ => some (.f 0x33)
  | .ldMemVx _ => some (.f 0x55)
  | .ldVxMem _ => some (.f 0x65)
  | .cls | .ret | .jp _ | .call _ | .seImm _ _ | .sneImm _ _ | .seReg _ _ | .ldImm _ _ | .addImm _ _
  | .ldReg _ _ | .orReg _ _ | .andReg _ _ | .xorReg _ _ | .addReg _ _ | .subReg _ _ | .shrReg _ _
  | .subnReg _ _ | .shlReg _ _ | .sneReg _ _ | .ldI _ | .jpV0 _ | .rnd _ _ => none

/-- The registers an instruction writes, from the rows "writes V[x]" and "writes VF as a flag" of 10_state.md R24. -/
def writesV : Instr → List Nibble
  | .ldImm x _ | .addImm x _ | .ldReg x _ | .orReg x _ | .andReg x _ | .xorReg x _ | .rnd x _ => [x]
  | .addReg x _ | .subReg x _ | .shrReg x _ | .subnReg x _ | .shlReg x _ => [x, 0xF]
  | .cls | .ret | .jp _ | .call _ | .seImm _ _ | .sneImm _ _ | .seReg _ _ | .sneReg _ _ | .ldI _ | .jpV0 _
  | .drw _ _ _ | .skp _ | .sknp _ | .ldVxDt _ | .ldVxK _ | .ldDtVx _ | .ldStVx _ | .addIVx _ | .ldFVx _
  | .ldBVx _ | .ldMemVx _ | .ldVxMem _ => []

/-- The registers an instruction reads, from the rows "reads V[x]", "reads V[y]" and "reads V[0]" of 10_state.md
R24; a slot passes V[x] and V[y] as arguments. -/
def readsV : Instr → List Nibble
  | .seImm x _ | .sneImm x _ | .addImm x _ | .shrReg x _ | .shlReg x _ => [x]
  | .seReg x y | .sneReg x y | .orReg x y | .andReg x y | .xorReg x y | .addReg x y | .subReg x y
  | .subnReg x y => [x, y]
  | .ldReg _ y => [y]
  | .jpV0 _ => [0x0]
  | .drw x y _ => [x, y]
  | .skp x => [x, yOf (encode (.skp x))]
  | .sknp x => [x, yOf (encode (.sknp x))]
  | .ldVxDt x => [x, yOf (encode (.ldVxDt x))]
  | .ldVxK x => [x, yOf (encode (.ldVxK x))]
  | .ldDtVx x => [x, yOf (encode (.ldDtVx x))]
  | .ldStVx x => [x, yOf (encode (.ldStVx x))]
  | .addIVx x => [x, yOf (encode (.addIVx x))]
  | .ldFVx x => [x, yOf (encode (.ldFVx x))]
  | .ldBVx x => [x, yOf (encode (.ldBVx x))]
  | .ldMemVx x => [x, yOf (encode (.ldMemVx x))]
  | .ldVxMem x => [x, yOf (encode (.ldVxMem x))]
  | .cls | .ret | .jp _ | .call _ | .ldImm _ _ | .ldI _ | .rnd _ _ => []

/-- Calls in a row, each the rule of 2nnn on the state the one before it left; none where one does not complete
(a halt is no completion). -/
def callAll : List Addr → State → Option State
  | [], s => some s
  | nnn :: rest, s =>
    match exec (.call nnn) s with
    | .next t => if t.run = s.run then callAll rest t else none
    | .fault _ => none
    | .refused _ => none

/-- A run of `n` steps from `s` has not halted: the safe runs that claims about programs speak of. -/
def notHaltedFor : Nat → State → Bool
  | 0, s => s.run == .running
  | n + 1, s =>
    match step s with
    | .next t => s.run == .running && notHaltedFor n t
    | .fault _ => false
    | .refused _ => false

end Sys2Proof.Machine
end

