-- ==== Sys2Proof/Certificates/Slice0/Obligations.lean ====
section
/-! DEFINITION. The statements for the provers. Each names the rule of spec/ it formalises. A statement about what
an instruction does says that `exec` answers a next state, what that state holds, and what it keeps (`FrameV`). -/

open Sys2Proof Sys2Proof.Machine

/-! ### Encoding -/

/-- Decoding an encoded instruction gives it back, whatever bytes follow (R70, R71, R73). -/
def Obligations.DecodeInvertsEncode : Prop :=
  ∀ (i : Instr) (rest : List Byte), decode (wordBytes (encode i) ++ rest) = .ok (i, rest)

/-- Every word that decodes is the word of the instruction it decodes to, so each instruction has one word and no
bit of a word is dropped (R73, R82). -/
def Obligations.EncodeRebuildsDecodedWord : Prop :=
  ∀ (w : Word) (i : Instr), decodeWord w = .ok i → encode i = w

/-- A word decodes exactly when a row of the opcode map matches it by mask and match, and then to an instruction
of that row (R73). -/
def Obligations.DecodeAcceptsExactlyTheOpcodeMap : Prop :=
  (∀ w : Word, (∃ i, decodeWord w = .ok i) ↔ ∃ r ∈ opcodeRows, r.matchesWord w = true) ∧
  ∀ (w : Word) (i : Instr), decodeWord w = .ok i → i.row.matchesWord w = true

/-- No word belongs to two rows of the opcode map (R79). -/
def Obligations.OpcodeRowsNeverOverlap : Prop :=
  ∀ (w : Word) (r q : OpcodeRow), r ∈ opcodeRows → q ∈ opcodeRows →
    r.matchesWord w = true → q.matchesWord w = true → r = q

/-- R71: the fields of a word, as numbers. -/
def Obligations.FieldsAreTheWordsBits : Prop :=
  ∀ w : Word,
    (decodeFields w).cls.toNat = w.toNat / 4096 ∧
    (decodeFields w).x.toNat = w.toNat / 256 % 16 ∧
    (decodeFields w).y.toNat = w.toNat / 16 % 16 ∧
    (decodeFields w).n.toNat = w.toNat % 16 ∧
    (decodeFields w).kk.toNat = w.toNat % 256 ∧
    (decodeFields w).nnn.toNat = w.toNat % 4096

/-- Words written out in 95_test_vectors.md decode to the instructions named there. -/
def Obligations.SpecWordsDecode : Prop :=
  decode [0x00, 0xE0] = .ok (.cls, []) ∧ decode [0x00, 0xEE] = .ok (.ret, []) ∧
  decode [0x12, 0x04] = .ok (.jp 0x204, []) ∧ decode [0x33, 0x05] = .ok (.seImm 0x3 0x05, []) ∧
  decode [0x6A, 0x03] = .ok (.ldImm 0xA 0x03, []) ∧ decode [0x8A, 0xBE] = .ok (.shlReg 0xA 0xB, []) ∧
  decode [0x8B, 0xA7] = .ok (.subnReg 0xB 0xA, []) ∧ decode [0xB2, 0x06] = .ok (.jpV0 0x206, []) ∧
  decode [0xD1, 0x25] = .ok (.drw 0x1 0x2 0x5, []) ∧ decode [0xF3, 0x29] = .ok (.ldFVx 0x3, [])

/-- R74: of class 0 only the two whole words are instructions; the document's example of an unknown one halts
with UnknownOpcode(0x0001, 0x200). -/
def Obligations.ClassZeroHasTwoInstructions : Prop :=
  (∀ (set : FSlotSet) (w : Word), classOf w = 0x0 →
    classify set w = if w = 0x00E0 then .instr .cls else if w = 0x00EE then .instr .ret else .unknown) ∧
  ∀ c : Config, ∃ t, step (loadProgram [0x00, 0x01] (State.resetWith c)) = .next t ∧
    t.run = .halted { kind := .unknownOpcode, haltPc := 0x200, op := some 0x0001 }

/-- R75: which instruction, with which fields, a word of class 5, 8 or 9 is for each `n`, and which `n` are unknown;
and which instruction every word is of the ten classes with one row and no selector. -/
def Obligations.SubOperationsSelectOnN : Prop :=
  ∀ (set : FSlotSet) (w : Word),
    (classOf w = 0x5 →
      classify set w = if nOf w = 0x0 then .instr (.seReg (xOf w) (yOf w)) else .unknown) ∧
    (classOf w = 0x9 →
      classify set w = if nOf w = 0x0 then .instr (.sneReg (xOf w) (yOf w)) else .unknown) ∧
    (classOf w = 0x8 →
      (nOf w = 0x0 → classify set w = .instr (.ldReg (xOf w) (yOf w))) ∧
      (nOf w = 0x1 → classify set w = .instr (.orReg (xOf w) (yOf w))) ∧
      (nOf w = 0x2 → classify set w = .instr (.andReg (xOf w) (yOf w))) ∧
      (nOf w = 0x3 → classify set w = .instr (.xorReg (xOf w) (yOf w))) ∧
      (nOf w = 0x4 → classify set w = .instr (.addReg (xOf w) (yOf w))) ∧
      (nOf w = 0x5 → classify set w = .instr (.subReg (xOf w) (yOf w))) ∧
      (nOf w = 0x6 → classify set w = .instr (.shrReg (xOf w) (yOf w))) ∧
      (nOf w = 0x7 → classify set w = .instr (.subnReg (xOf w) (yOf w))) ∧
      (nOf w = 0xE → classify set w = .instr (.shlReg (xOf w) (yOf w))) ∧
      (nOf w ∈ ([0x8, 0x9, 0xA, 0xB, 0xC, 0xD, 0xF] : List Nibble) → classify set w = .unknown)) ∧
    (classOf w = 0x1 → classify set w = .instr (.jp (nnnOf w))) ∧
    (classOf w = 0x2 → classify set w = .instr (.call (nnnOf w))) ∧
    (classOf w = 0x3 → classify set w = .instr (.seImm (xOf w) (kkOf w))) ∧
    (classOf w = 0x4 → classify set w = .instr (.sneImm (xOf w) (kkOf w))) ∧
    (classOf w = 0x6 → classify set w = .instr (.ldImm (xOf w) (kkOf w))) ∧
    (classOf w = 0x7 → classify set w = .instr (.addImm (xOf w) (kkOf w))) ∧
    (classOf w = 0xA → classify set w = .instr (.ldI (nnnOf w))) ∧
    (classOf w = 0xB → classify set w = .instr (.jpV0 (nnnOf w))) ∧
    (classOf w = 0xC → classify set w = .instr (.rnd (xOf w) (kkOf w))) ∧
    (classOf w = 0xD → classify set w = .instr (.drw (xOf w) (yOf w) (nOf w)))

/-- R76: class E selects on `kk`. -/
def Obligations.ClassESelectsOnKk : Prop :=
  ∀ (set : FSlotSet) (w : Word), classOf w = 0xE →
    classify set w =
      if kkOf w = 0x9E then .instr (.skp (xOf w)) else if kkOf w = 0xA1 then .instr (.sknp (xOf w)) else .unknown

/-- R77: a class-F word is a slot of its own `kk` when that is in F_SLOT_SET, and unknown otherwise; the set's three
values. -/
def Obligations.ClassFFollowsTheSlotSet : Prop :=
  (∀ (set : FSlotSet) (w : Word), classOf w = 0xF →
    (set.contains (kkOf w) = false → classify set w = .unknown) ∧
    (set.contains (kkOf w) = true →
      classify set w = .slotF (kkOf w) ∨
      ∃ i, classify set w = .instr i ∧ encode i = w ∧ slotKind i = some (.f (kkOf w)))) ∧
  Config.default.fSlotSet = .standard ∧
  ∀ kk : Byte,
    (FSlotSet.standard.contains kk = true ↔
      kk ∈ ([0x07, 0x0A, 0x15, 0x18, 0x1E, 0x29, 0x33, 0x55, 0x65] : List Byte)) ∧
    (FSlotSet.named.contains kk = true ↔ kk ∈ ([0x07, 0x0A, 0x15, 0x18] : List Byte)) ∧
    FSlotSet.all.contains kk = true

/-- R82: every mnemonic form assembles to the word of its one instruction; a line that assembles is such a form, or
the shorthand `SHR Vx` / `SHL Vx` of R81 with `y = 0`; numbers out of range are refused. -/
def Obligations.AssemblerHasOneWordPerForm : Prop :=
  (∀ i : Instr, assembleLine (disassemble i) = some i) ∧
  (∀ (l : AsmLine) (i : Instr), assembleLine l = some i →
    l = disassemble i ∨
    (∃ x, l = { mnemonic := .shr, operands := [.v x] } ∧ i = .shrReg x 0x0) ∨
    (∃ x, l = { mnemonic := .shl, operands := [.v x] } ∧ i = .shlReg x 0x0)) ∧
  (∀ (x : Nibble) (k : Nat), 0xFF < k → ∀ m : Mnemonic, m ≠ .jp →
    assembleLine { mnemonic := m, operands := [.v x, .num k] } = none) ∧
  (∀ (x : Nibble) (k : Nat), 0xFFF < k →
    (∀ m : Mnemonic, assembleLine { mnemonic := m, operands := [.num k] } = none) ∧
    assembleLine { mnemonic := .ld, operands := [.i, .num k] } = none ∧
    assembleLine { mnemonic := .jp, operands := [.v x, .num k] } = none) ∧
  ∀ (x y : Nibble) (k : Nat), 0xF < k → ∀ m : Mnemonic,
    assembleLine { mnemonic := m, operands := [.v x, .v y, .num k] } = none

/-! ### The step and its halts -/

/-- A step of a running core runs the instruction that the two bytes at the pc decode to, if the machine's
F_SLOT_SET has it; nothing is added around `exec` (R104, R115). -/
def Obligations.StepRunsTheDecodedInstruction : Prop :=
  ∀ (s : State) (i : Instr), s.run = .running → s.pc.toNat ≤ 0x0FFE →
    decode [readByte s s.pc.toNat, readByte s (s.pc.toNat + 1)] = .ok (i, []) →
    i.wellFormed s.config.fSlotSet = true → step s = exec i s

/-- R105: the fetch combines the two bytes at the pc big-endian; above 0x0FFE the core halts with OutOfBounds. An
odd pc is fetched the same way: no clause asks whether it is even. -/
def Obligations.FetchIsBigEndianAndBounded : Prop :=
  (∀ s : State, s.pc.toNat ≤ 0x0FFE →
    ∃ w, fetch s = .ok w ∧
      w.toNat = (readByte s s.pc.toNat).toNat * 256 + (readByte s (s.pc.toNat + 1)).toNat) ∧
  ∀ s : State, s.run = .running → 0x0FFE < s.pc.toNat →
    step s = .next { s with
      run := .halted { kind := .outOfBounds, haltPc := s.pc, op := none }, event := none }

/-- R78: an unknown word halts the core with the word and the address it was fetched from. -/
def Obligations.UnknownWordsHalt : Prop :=
  ∀ (s : State) (w : Word), s.run = .running → fetch s = .ok w → classify s.config.fSlotSet w = .unknown →
    step s = .next { s with
      run := .halted { kind := .unknownOpcode, haltPc := s.pc, op := some w }, event := none }

/-- R221, R222: what each halt's cause is and what its record holds. -/
def Obligations.HaltCausesAndRecords : Prop :=
  ∀ (s t : State) (r : HaltRecord), s.run = .running → step s = .next t → t.run = .halted r →
    (r = { kind := .outOfBounds, haltPc := s.pc, op := none } ∧ 0x0FFE < s.pc.toNat) ∨
    ∃ w, fetch s = .ok w ∧
      ((r = { kind := .unknownOpcode, haltPc := s.pc, op := some w } ∧
          classify s.config.fSlotSet w = .unknown) ∨
       (r = { kind := .stackOverflow, haltPc := s.pc, op := some w } ∧ classOf w = 0x2 ∧ 16 ≤ depth s) ∨
       (r = { kind := .stackUnderflow, haltPc := s.pc, op := some w } ∧ w = 0x00EE ∧ depth s = 0))

/-- R110: a failing cycle leaves everything but the run state as it was and emits no event. -/
def Obligations.FailingCycleChangesOnlyTheRunState : Prop :=
  ∀ (s t : State) (r : HaltRecord), s.run = .running → step s = .next t → t.run = .halted r →
    t = { s with run := .halted r, event := none }

/-- R111: however many steps are requested of a halted core, nothing changes and no event is emitted. -/
def Obligations.HaltedCoreAbsorbsSteps : Prop :=
  ∀ (n : Nat) (s : State) (r : HaltRecord), s.run = .halted r →
    Host.Core.run Sys2Proof.core (n + 1) s = .next { s with event := none }

/-- Every step answers a next state, but for a slot under SLOT_POLICY = refuse (R102, R115, R213). -/
def Obligations.StepAlwaysAnswersOrRefusesASlot : Prop :=
  ∀ s : State, (∃ t, step s = .next t) ∨
    ∃ w, step s = .refused (.slotRefused w) ∧ fetch s = .ok w ∧ s.config.slotPolicy = .refuse ∧
      ((∃ i k, classify s.config.fSlotSet w = .instr i ∧ slotKind i = some k) ∨
       ∃ kk, classify s.config.fSlotSet w = .slotF kk)

/-- Every step keeps the invariant: the memory's canonical form, at most 16 stack entries, the bounds of the pc, I
and the entries (R25, R29, R30), and the halt record (R221 to R223). -/
def Obligations.StepKeepsInvariant : Prop :=
  ∀ s t : State, Inv s → step s = .next t → Inv t

/-- A reset machine meets the invariant, whatever its parameters, and so it does after a program load. -/
def Obligations.ResetAndLoadMeetInvariant : Prop :=
  ∀ (c : Config) (image : List Byte),
    Inv (State.resetWith c) ∧ Inv (loadProgram image (State.resetWith c))

/-- In every run in which the host keeps to R252, its resets and the loads after them included: the pc is at most
0x10FE, bits 15 to 12 of I are 0, at most 16 return addresses are held, none above 0x1000 (R25, R29, R30). -/
def Obligations.ReachableStatesStayInBounds : Prop :=
  ∀ s : State, Reachable s →
    s.pc.toNat ≤ 0x10FE ∧ s.i.toNat ≤ 0x0FFF ∧ depth s ≤ 16 ∧ ∀ w ∈ s.stack, w.toNat ≤ 0x1000

/-- R56: no step writes memory, and the reserved region keeps its reset contents in every run in which the host keeps to
R252, whatever it loads and however often it resets. -/
def Obligations.ReservedRegionKeepsResetContents : Prop :=
  (∀ s t : State, step s = .next t → ∀ a, readByte t a = readByte s a) ∧
  ∀ s : State, Reachable s → ∀ a, a < 0x200 → readByte s a = readByte (State.resetWith s.config) a

/-- R34: CORE_STATUS, with the kind codes of R220. -/
def Obligations.CoreStatusLayout : Prop :=
  ∀ s : State,
    (s.run = .running → coreStatus s = 0) ∧
    ∀ r : HaltRecord, s.run = .halted r →
      (coreStatus s).extractLsb' 0 1 = 1 ∧
      ((coreStatus s).extractLsb' 1 3).toNat =
        (match r.kind with
          | .outOfBounds => 1
          | .stackOverflow => 2
          | .stackUnderflow => 3
          | .unknownOpcode => 4) ∧
      ((coreStatus s).extractLsb' 4 1 = 1 ↔ r.op ≠ none) ∧
      (coreStatus s).extractLsb' 5 3 = 0 ∧
      (coreStatus s).extractLsb' 8 16 = r.haltPc ∧
      (coreStatus s).extractLsb' 24 16 = r.op.getD 0

/-- A reset gives every piece of state its reset value (R36, R250), from any state, a halted one included. Three clauses
say more than R250 and are the model's: that the parameters are those of before (notes/assumptions 1 and 20), that a
second reset changes nothing, over the model's own fields too (notes/assumptions 4, 5 and 20), and that `readByte`
answers the fill byte also above 0x0FFF, where there is no memory (notes/assumptions 15). -/
def Obligations.ResetSetsEveryPieceOfState : Prop :=
  ∀ s : State,
    (∀ x, readV (hostReset s) x = 0x00) ∧ (hostReset s).i = 0x0000 ∧ (hostReset s).pc = 0x0200 ∧
    depth (hostReset s) = 0 ∧ (hostReset s).run = .running ∧ coreStatus (hostReset s) = 0 ∧
    (∀ a, (h : a < 80) → readByte (hostReset s) a = s.config.font[a]) ∧
    (∀ a, 80 ≤ a → readByte (hostReset s) a = s.config.initFill) ∧
    hostReset (State.resetWith s.config) = State.resetWith s.config

/-- R59, with the truncation of R58: what every address reads as after a program load, and that a load changes
nothing but memory. -/
def Obligations.LoadedImageReadsBack : Prop :=
  ∀ (image : List Byte) (s : State), Memory.wf s.config s.mem = true →
    (∀ k, (h : k < image.length) → k < 3584 → readByte (loadProgram image s) (0x200 + k) = image[k]) ∧
    (∀ a, a < 0x200 ∨ 0x200 + image.length ≤ a ∨ 0x1000 ≤ a →
      readByte (loadProgram image s) a = readByte s a) ∧
    { loadProgram image s with mem := s.mem } = s

/-- R51: the memory ports. The premise is the canonical form, which reset has and every operation keeps. -/
def Obligations.MemoryPortsReadWhatWasWritten : Prop :=
  ∀ (s : State) (a : Word) (b : Byte), Memory.wf s.config s.mem = true →
    (a.toNat ≤ 0x0FFF →
      memRead s a = .ok (readByte s a.toNat) ∧
      ∃ t, memWrite s a b = .ok t ∧ memRead t a = .ok b ∧ (∀ c, c ≠ a → memRead t c = memRead s c) ∧
        { t with mem := s.mem } = s) ∧
    (0x0FFF < a.toNat →
      memRead s a = .error (.outOfBounds a.toNat) ∧ memWrite s a b = .error (.outOfBounds a.toNat))

/-- The host's moves (R252): a load is taken after a reset, before the first step, once; a read of CORE_STATUS
changes nothing; a step answers exactly what `step` answers with the host's byte; a reset puts the core into the reset
state (`ResetSetsEveryPieceOfState`) and opens the window again. -/
def Obligations.HostMovesKeepToTheirWindow : Prop :=
  ∀ (h : Session) (image : List Byte),
    (h.phase = .afterReset →
      h.move (.loadProgram image) = .next { phase := .loaded, core := loadProgram image h.core }) ∧
    (h.phase ≠ .afterReset → h.move (.loadProgram image) = .refused .loadOutsideWindow) ∧
    h.move .readStatus = .next h ∧
    (∀ b h', h.move (.step b) = .next h' ↔ h'.phase = .stepped ∧ step (setRnd h.core b) = .next h'.core) ∧
    (∀ b r, h.move (.step b) = .refused r ↔ step (setRnd h.core b) = .refused r) ∧
    (∀ b f, h.move (.step b) = .fault f ↔ step (setRnd h.core b) = .fault f) ∧
    h.move .reset = .next { phase := .afterReset, core := hostReset h.core }

/-- The random byte of a step is used only by Cxkk (R101): any other instruction does the same whatever it is. -/
def Obligations.OnlyRndReadsTheRandomByte : Prop :=
  ∀ (i : Instr) (s t : State) (b : Byte), (∀ x kk, i ≠ .rnd x kk) → exec i s = .next t →
    exec i (setRnd s b) = .next (setRnd t b)

/-! ### System and flow (41_system_flow.md) -/

/-- R130: CLS. -/
def Obligations.ClsEmitsDisplayClear : Prop :=
  ∀ s : State, ∃ t, exec .cls s = .next t ∧ t.pc = s.pc + 2 ∧ t.event = some .displayClear ∧ FrameV s t []

/-- R131: RET, on a stack that holds an address and on an empty one. -/
def Obligations.RetPopsOrUnderflows : Prop :=
  (∀ (s : State) (w : Word) (rest : List Word), s.stack = rest ++ [w] →
    ∃ t, exec .ret s = .next t ∧ t.pc = w ∧ t.stack = rest ∧ t.event = none ∧
      FrameV s { t with stack := s.stack } []) ∧
  ∀ s : State, s.stack = [] →
    exec .ret s = .next { s with
      run := .halted { kind := .stackUnderflow, haltPc := s.pc, op := some 0x00EE }, event := none }

/-- R132: JP, to any target: odd, reserved or 0xFFF. -/
def Obligations.JpSetsThePc : Prop :=
  ∀ (s : State) (nnn : Addr),
    ∃ t, exec (.jp nnn) s = .next t ∧ t.pc.toNat = nnn.toNat ∧ t.event = none ∧ FrameV s t []

/-- R133: CALL, below 16 entries and at 16. -/
def Obligations.CallPushesOrOverflows : Prop :=
  (∀ (s : State) (nnn : Addr), depth s < 16 →
    ∃ t, exec (.call nnn) s = .next t ∧ t.pc.toNat = nnn.toNat ∧ t.stack = s.stack ++ [s.pc + 2] ∧
      t.event = none ∧ FrameV s { t with stack := s.stack } []) ∧
  ∀ (s : State) (nnn : Addr), depth s = 16 →
    exec (.call nnn) s = .next { s with
      run := .halted { kind := .stackOverflow, haltPc := s.pc, op := some (encode (.call nnn)) }, event := none }

/-- The call and return round trip (R131, R133; 95_test_vectors.md S3): the return goes to the call's pc + 2 and the
stack is as before. -/
def Obligations.ReturnUndoesCall : Prop :=
  ∀ (s : State) (nnn : Addr), depth s < 16 →
    ∃ t u, exec (.call nnn) s = .next t ∧ exec .ret t = .next u ∧ u.pc = s.pc + 2 ∧ FrameV s u []

/-- "16 nested 2nnn calls succeed; a 17th fails with StackOverflow" (R133; 95_test_vectors.md S4). -/
def Obligations.SixteenNestedCallsThenOverflow : Prop :=
  ∀ (s : State) (targets : List Addr) (nnn : Addr), s.stack = [] → s.run = .running → targets.length = 16 →
    ∃ t, callAll targets s = some t ∧ depth t = 16 ∧ t.run = .running ∧
      exec (.call nnn) t = .next { t with
        run := .halted { kind := .stackOverflow, haltPc := t.pc, op := some (encode (.call nnn)) }, event := none }

/-! ### Skips (42_skips.md) -/

/-- R140: SE Vx, kk. -/
def Obligations.SeImmSkipsOnEqual : Prop :=
  ∀ (s : State) (x : Nibble) (kk : Byte), ∃ t, exec (.seImm x kk) s = .next t ∧
    (readV s x = kk → t.pc = s.pc + 4) ∧ (readV s x ≠ kk → t.pc = s.pc + 2) ∧ t.event = none ∧ FrameV s t []

/-- R141: SNE Vx, kk. -/
def Obligations.SneImmSkipsOnUnequal : Prop :=
  ∀ (s : State) (x : Nibble) (kk : Byte), ∃ t, exec (.sneImm x kk) s = .next t ∧
    (readV s x ≠ kk → t.pc = s.pc + 4) ∧ (readV s x = kk → t.pc = s.pc + 2) ∧ t.event = none ∧ FrameV s t []

/-- R142: SE Vx, Vy; with `x = y` it always skips. -/
def Obligations.SeRegSkipsOnEqual : Prop :=
  ∀ (s : State) (x y : Nibble), ∃ t, exec (.seReg x y) s = .next t ∧
    (readV s x = readV s y → t.pc = s.pc + 4) ∧ (readV s x ≠ readV s y → t.pc = s.pc + 2) ∧
    (x = y → t.pc = s.pc + 4) ∧ t.event = none ∧ FrameV s t []

/-- R143: SNE Vx, Vy; with `x = y` it never skips. -/
def Obligations.SneRegSkipsOnUnequal : Prop :=
  ∀ (s : State) (x y : Nibble), ∃ t, exec (.sneReg x y) s = .next t ∧
    (readV s x ≠ readV s y → t.pc = s.pc + 4) ∧ (readV s x = readV s y → t.pc = s.pc + 2) ∧
    (x = y → t.pc = s.pc + 2) ∧ t.event = none ∧ FrameV s t []

/-! ### Register-immediate (43_register_immediate.md) -/

/-- R150: LD Vx, kk. -/
def Obligations.LdImmLoadsKk : Prop :=
  ∀ (s : State) (x : Nibble) (kk : Byte), ∃ t, exec (.ldImm x kk) s = .next t ∧
    readV t x = kk ∧ t.pc = s.pc + 2 ∧ t.event = none ∧ FrameV s t [x]

/-- R151: ADD Vx, kk wraps modulo 256 and sets no flag. -/
def Obligations.AddImmWrapsWithoutFlag : Prop :=
  ∀ (s : State) (x : Nibble) (kk : Byte), ∃ t, exec (.addImm x kk) s = .next t ∧
    (readV t x).toNat = ((readV s x).toNat + kk.toNat) % 256 ∧ t.pc = s.pc + 2 ∧ t.event = none ∧ FrameV s t [x]

/-! ### The ALU and class 8 (44_alu_register.md) -/

/-- R161: the table of the ALU functions: their codes, which of them write the flag (column `fe`), and for every pair of
operands the result, the flag and the compare. -/
def Obligations.AluFunctionTable : Prop :=
  (([.passB, .or, .and, .xor, .add, .sub, .shr, .subn, .shl, .addNF, .eq] : List AluFn).map AluFn.code =
    [0x0, 0x1, 0x2, 0x3, 0x4, 0x5, 0x6, 0x7, 0xE, 0x8, 0x9]) ∧
  (∀ (fn : AluFn) (a b : Byte),
    (alu fn a b).fe = true ↔ fn ∈ ([.add, .sub, .shr, .subn, .shl] : List AluFn)) ∧
  ∀ a b : Byte,
    alu .passB a b = { res := some b, flag := none, eq := a == b } ∧
    alu .or a b = { res := some (a ||| b), flag := none, eq := a == b } ∧
    alu .and a b = { res := some (a &&& b), flag := none, eq := a == b } ∧
    alu .xor a b = { res := some (a ^^^ b), flag := none, eq := a == b } ∧
    (∃ r f, alu .add a b = { res := some r, flag := some f, eq := a == b } ∧
      r.toNat = (a.toNat + b.toNat) % 256 ∧ f = if 255 < a.toNat + b.toNat then 0x01 else 0x00) ∧
    (∃ r f, alu .sub a b = { res := some r, flag := some f, eq := a == b } ∧
      (r.toNat : Int) = ((a.toNat : Int) - b.toNat) % 256 ∧ f = if b.toNat ≤ a.toNat then 0x01 else 0x00) ∧
    (∃ r f, alu .shr a b = { res := some r, flag := some f, eq := a == b } ∧
      r.toNat = a.toNat / 2 ∧ f.toNat = a.toNat % 2) ∧
    (∃ r f, alu .subn a b = { res := some r, flag := some f, eq := a == b } ∧
      (r.toNat : Int) = ((b.toNat : Int) - a.toNat) % 256 ∧ f = if a.toNat ≤ b.toNat then 0x01 else 0x00) ∧
    (∃ r f, alu .shl a b = { res := some r, flag := some f, eq := a == b } ∧
      r.toNat = a.toNat * 2 % 256 ∧ f.toNat = a.toNat / 128) ∧
    (∃ r, alu .addNF a b = { res := some r, flag := none, eq := a == b } ∧
      r.toNat = (a.toNat + b.toNat) % 256) ∧
    alu .eq a b = { res := none, flag := none, eq := a == b }

/-- R162 to R165: LD, OR, AND and XOR of registers write V[x] and no flag. -/
def Obligations.CopyAndLogicWriteOnlyVx : Prop :=
  ∀ (s : State) (x y : Nibble),
    (∃ t, exec (.ldReg x y) s = .next t ∧ readV t x = readV s y ∧
      t.pc = s.pc + 2 ∧ t.event = none ∧ FrameV s t [x]) ∧
    (∃ t, exec (.orReg x y) s = .next t ∧ readV t x = readV s x ||| readV s y ∧
      t.pc = s.pc + 2 ∧ t.event = none ∧ FrameV s t [x]) ∧
    (∃ t, exec (.andReg x y) s = .next t ∧ readV t x = readV s x &&& readV s y ∧
      t.pc = s.pc + 2 ∧ t.event = none ∧ FrameV s t [x]) ∧
    ∃ t, exec (.xorReg x y) s = .next t ∧ readV t x = readV s x ^^^ readV s y ∧
      t.pc = s.pc + 2 ∧ t.event = none ∧ FrameV s t [x]

/-- R166: ADD Vx, Vy. With `x = 0xF` VF ends holding the sum: the first clause holds for it too. -/
def Obligations.AddRegSumAndCarry : Prop :=
  ∀ (s : State) (x y : Nibble), ∃ t, exec (.addReg x y) s = .next t ∧
    (readV t x).toNat = ((readV s x).toNat + (readV s y).toNat) % 256 ∧
    (x ≠ 0xF → readV t 0xF = if 255 < (readV s x).toNat + (readV s y).toNat then 0x01 else 0x00) ∧
    t.pc = s.pc + 2 ∧ t.event = none ∧ FrameV s t [x, 0xF]

/-- R167: SUB Vx, Vy. -/
def Obligations.SubRegDifferenceAndNotBorrow : Prop :=
  ∀ (s : State) (x y : Nibble), ∃ t, exec (.subReg x y) s = .next t ∧
    ((readV t x).toNat : Int) = ((readV s x).toNat - (readV s y).toNat : Int) % 256 ∧
    (x ≠ 0xF → readV t 0xF = if (readV s y).toNat ≤ (readV s x).toNat then 0x01 else 0x00) ∧
    t.pc = s.pc + 2 ∧ t.event = none ∧ FrameV s t [x, 0xF]

/-- R168: SHR Vx, Vy. The result names V[x] only: V[y] has no part in it. -/
def Obligations.ShrRegHalvesVx : Prop :=
  ∀ (s : State) (x y : Nibble), ∃ t, exec (.shrReg x y) s = .next t ∧
    (readV t x).toNat = (readV s x).toNat / 2 ∧
    (x ≠ 0xF → (readV t 0xF).toNat = (readV s x).toNat % 2) ∧
    t.pc = s.pc + 2 ∧ t.event = none ∧ FrameV s t [x, 0xF]

/-- R169: SUBN Vx, Vy. -/
def Obligations.SubnRegDifferenceAndNotBorrow : Prop :=
  ∀ (s : State) (x y : Nibble), ∃ t, exec (.subnReg x y) s = .next t ∧
    ((readV t x).toNat : Int) = ((readV s y).toNat - (readV s x).toNat : Int) % 256 ∧
    (x ≠ 0xF → readV t 0xF = if (readV s x).toNat ≤ (readV s y).toNat then 0x01 else 0x00) ∧
    t.pc = s.pc + 2 ∧ t.event = none ∧ FrameV s t [x, 0xF]

/-- R170: SHL Vx, Vy. The result names V[x] only. -/
def Obligations.ShlRegDoublesVx : Prop :=
  ∀ (s : State) (x y : Nibble), ∃ t, exec (.shlReg x y) s = .next t ∧
    (readV t x).toNat = (readV s x).toNat * 2 % 256 ∧
    (x ≠ 0xF → (readV t 0xF).toNat = (readV s x).toNat / 128) ∧
    t.pc = s.pc + 2 ∧ t.event = none ∧ FrameV s t [x, 0xF]

/-! ### Index, indexed jump, random (45_index_jump_random.md) -/

/-- R190: LD I, nnn; bits 15 to 12 of I become 0. -/
def Obligations.LdILoadsTheIndex : Prop :=
  ∀ (s : State) (nnn : Addr), ∃ t, exec (.ldI nnn) s = .next t ∧
    t.i.toNat = nnn.toNat ∧ t.pc = s.pc + 2 ∧ t.event = none ∧ FrameV s { t with i := s.i } []

/-- R191: JP V0, nnn; the sum is not reduced modulo 0x1000, and above 0xFFE the next step halts. -/
def Obligations.JpV0AddsUnmasked : Prop :=
  ∀ (s : State) (nnn : Addr), ∃ t, exec (.jpV0 nnn) s = .next t ∧
    t.pc.toNat = nnn.toNat + (readV s 0x0).toNat ∧ t.event = none ∧ FrameV s t [] ∧
    (s.run = .running → 0x0FFE < nnn.toNat + (readV s 0x0).toNat →
      step t = .next { t with run := .halted { kind := .outOfBounds, haltPc := t.pc, op := none } })

/-- R192: RND Vx, kk, whatever the step's random byte is. -/
def Obligations.RndMasksTheStepsByte : Prop :=
  ∀ (s : State) (x : Nibble) (kk : Byte), ∃ t, exec (.rnd x kk) s = .next t ∧
    readV t x = s.rnd &&& kk ∧ readV t x &&& ~~~kk = 0x00 ∧ (kk = 0x00 → readV t x = 0x00) ∧
    t.pc = s.pc + 2 ∧ t.event = none ∧ FrameV s { t with rnd := s.rnd, draws := s.draws } [x]

/-! ### Collaborator slots (46_collaborator_slots.md) -/

/-- R200: under SLOT_POLICY = emit_and_advance a slot emits one event with every field of the word, both register values
and I, advances the pc by 2 and does nothing else. First the twelve slots of R201 to R212 (`slotKind` names them: DRW,
SKP, SKNP, Fx07, Fx0A, Fx15, Fx18, Fx1E, Fx29, Fx33, Fx55, Fx65), then a step on a slot word without a row of its own
(R77). -/
def Obligations.SlotsEmitAndAdvance : Prop :=
  (∀ (s : State) (i : Instr) (k : SlotKind), slotKind i = some k → s.config.slotPolicy = .emitAndAdvance →
    ∃ t, exec i s = .next t ∧ t.pc = s.pc + 2 ∧ FrameV s t [] ∧
      t.event = some (.slot {
        kind := k, opcode := encode i, pc := s.pc, x := xOf (encode i), y := yOf (encode i), n := nOf (encode i),
        kk := kkOf (encode i), vx := readV s (xOf (encode i)), vy := readV s (yOf (encode i)), i := s.i })) ∧
  ∀ (s : State) (w : Word) (kk : Byte), s.run = .running → fetch s = .ok w →
    classify s.config.fSlotSet w = .slotF kk → s.config.slotPolicy = .emitAndAdvance →
    ∃ t, step s = .next t ∧ t.pc = s.pc + 2 ∧ FrameV s t [] ∧
      t.event = some (.slot {
        kind := .f kk, opcode := w, pc := s.pc, x := xOf w, y := yOf w, n := nOf w, kk := kkOf w,
        vx := readV s (xOf w), vy := readV s (yOf w), i := s.i })

/-- R213: under SLOT_POLICY = refuse every slot is REFUSED, and so is every step whose word is a slot, with or without a
row of its own; a class-F word outside F_SLOT_SET halts with UnknownOpcode under either policy. -/
def Obligations.RefusePolicyRefusesSlots : Prop :=
  (∀ (s : State) (i : Instr) (k : SlotKind), slotKind i = some k → s.config.slotPolicy = .refuse →
    exec i s = .refused (.slotRefused (encode i))) ∧
  (∀ (s : State) (w : Word), s.run = .running → fetch s = .ok w → s.config.slotPolicy = .refuse →
    (∃ i k, classify s.config.fSlotSet w = .instr i ∧ slotKind i = some k) ∨
      (∃ kk, classify s.config.fSlotSet w = .slotF kk) →
    step s = .refused (.slotRefused w)) ∧
  ∀ (s : State) (w : Word), s.run = .running → fetch s = .ok w → classOf w = 0xF →
    s.config.fSlotSet.contains (kkOf w) = false →
    step s = .next { s with
      run := .halted { kind := .unknownOpcode, haltPc := s.pc, op := some w }, event := none }

/-- A class-F word without a row in the opcode map is a slot all the same where F_SLOT_SET is all 256 values
(R77, R200). -/
def Obligations.RowlessClassFSlotsEmit : Prop :=
  ∀ (s : State) (w : Word), s.run = .running → fetch s = .ok w → classOf w = 0xF →
    s.config.fSlotSet = .all → s.config.slotPolicy = .emitAndAdvance →
    ∃ t, step s = .next t ∧ t.pc = s.pc + 2 ∧ FrameV s t [] ∧
      t.event = some (.slot {
        kind := .f (kkOf w), opcode := w, pc := s.pc, x := xOf w, y := yOf w, n := nOf w, kk := kkOf w,
        vx := readV s (xOf w), vy := readV s (yOf w), i := s.i })

/-! ### Whole-machine rules -/

/-- R112: CLS emits DisplayClear, a slot a Slot event, and no other instruction an event. -/
def Obligations.OnlyClsAndSlotsEmitEvents : Prop :=
  ∀ (i : Instr) (s t : State), exec i s = .next t →
    (t.event = some .displayClear ↔ i = .cls) ∧
    ((∃ r, t.event = some (.slot r)) ↔ ∃ k, slotKind i = some k)

/-- What each instruction may write (the "writes" rows of R24, R33): no other register, I only by Annn, the stack
only by 2nnn and 00EE, the run state only by a stack halt of those two, and memory by none. -/
def Obligations.InstructionsWriteOnlyWhatTheTableLists : Prop :=
  ∀ (i : Instr) (s t : State), exec i s = .next t →
    (∀ r, r ∉ writesV i → readV t r = readV s r) ∧
    (t.i ≠ s.i → ∃ nnn, i = .ldI nnn) ∧
    (t.stack ≠ s.stack → i = .ret ∨ ∃ nnn, i = .call nnn) ∧
    (t.run ≠ s.run → i = .ret ∨ ∃ nnn, i = .call nnn) ∧
    (∀ a, readByte t a = readByte s a) ∧ t.config = s.config

/-- What each instruction may read (the "reads" rows of R24): two states that differ only in registers it does not
read end with the same pc, I, stack, run state and event and the same values in the registers it writes. -/
def Obligations.InstructionsReadOnlyWhatTheTableLists : Prop :=
  ∀ (i : Instr) (s t : State) (v : Vector Byte 16), (∀ r ∈ readsV i, readV { s with v := v } r = readV s r) →
    exec i s = .next t →
    ∃ u, exec i { s with v := v } = .next u ∧ { u with v := t.v } = t ∧ ∀ r ∈ writesV i, readV u r = readV t r
end

