-- ==== Sys2Proof/Laws/Encoding.lean ====
section
/-! SUPPORT. The fields of a packed word, and a word rebuilt from its fields (30_encoding.md R70, R71). Each field
and each packing is first said as a number; the rest is arithmetic. -/

namespace Sys2Proof

/-! ### As numbers -/

theorem classOf_toNat (w : Word) : (classOf w).toNat = w.toNat / 4096 % 16 := by
  simp [classOf, BitVec.extractLsb'_toNat, Nat.shiftRight_eq_div_pow]

theorem xOf_toNat (w : Word) : (xOf w).toNat = w.toNat / 256 % 16 := by
  simp [xOf, BitVec.extractLsb'_toNat, Nat.shiftRight_eq_div_pow]

theorem yOf_toNat (w : Word) : (yOf w).toNat = w.toNat / 16 % 16 := by
  simp [yOf, BitVec.extractLsb'_toNat, Nat.shiftRight_eq_div_pow]

theorem nOf_toNat (w : Word) : (nOf w).toNat = w.toNat % 16 := by
  simp [nOf, BitVec.extractLsb'_toNat]

theorem kkOf_toNat (w : Word) : (kkOf w).toNat = w.toNat % 256 := by
  simp [kkOf, BitVec.extractLsb'_toNat]

theorem nnnOf_toNat (w : Word) : (nnnOf w).toNat = w.toNat % 4096 := by
  simp [nnnOf, BitVec.extractLsb'_toNat]

theorem hiByte_toNat (w : Word) : (hiByte w).toNat = w.toNat / 256 := by
  have := w.isLt
  simp [hiByte, BitVec.extractLsb'_toNat, Nat.shiftRight_eq_div_pow]
  omega

theorem loByte_toNat (w : Word) : (loByte w).toNat = w.toNat % 256 := by
  simp [loByte, BitVec.extractLsb'_toNat]

theorem append_toNat {m n : Nat} (a : BitVec m) (b : BitVec n) : (a ++ b).toNat = a.toNat * 2 ^ n + b.toNat := by
  rw [BitVec.toNat_append, ← Nat.shiftLeft_add_eq_or_of_lt b.isLt, Nat.shiftLeft_eq]

theorem packNnn_toNat (c : Nibble) (nnn : Addr) : (packNnn c nnn).toNat = c.toNat * 4096 + nnn.toNat :=
  append_toNat c nnn

theorem packXkk_toNat (c x : Nibble) (kk : Byte) :
    (packXkk c x kk).toNat = c.toNat * 4096 + x.toNat * 256 + kk.toNat := by
  have hx : (x ++ kk : Addr).toNat = x.toNat * 256 + kk.toNat := append_toNat x kk
  have h : (packXkk c x kk).toNat = c.toNat * 4096 + (x ++ kk : Addr).toNat := packNnn_toNat c (x ++ kk)
  rw [h, hx, Nat.add_assoc]

theorem packXyn_toNat (c x y n : Nibble) :
    (packXyn c x y n).toNat = c.toNat * 4096 + x.toNat * 256 + y.toNat * 16 + n.toNat := by
  have hy : (y ++ n : Byte).toNat = y.toNat * 16 + n.toNat := append_toNat y n
  have h : (packXyn c x y n).toNat = c.toNat * 4096 + x.toNat * 256 + (y ++ n : Byte).toNat :=
    packXkk_toNat c x (y ++ n)
  rw [h, hy, Nat.add_assoc, Nat.add_assoc, Nat.add_assoc]

theorem wordOfBytes_toNat (hi lo : Byte) : (wordOfBytes hi lo).toNat = hi.toNat * 256 + lo.toNat :=
  append_toNat hi lo

/-! ### The fields of a packed word -/

@[simp] theorem classOf_packNnn (c : Nibble) (nnn : Addr) : classOf (packNnn c nnn) = c := by
  apply BitVec.eq_of_toNat_eq; rw [classOf_toNat, packNnn_toNat]; omega

@[simp] theorem nnnOf_packNnn (c : Nibble) (nnn : Addr) : nnnOf (packNnn c nnn) = nnn := by
  apply BitVec.eq_of_toNat_eq; rw [nnnOf_toNat, packNnn_toNat]; omega

@[simp] theorem classOf_packXkk (c x : Nibble) (kk : Byte) : classOf (packXkk c x kk) = c := by
  apply BitVec.eq_of_toNat_eq; rw [classOf_toNat, packXkk_toNat]; omega

@[simp] theorem xOf_packXkk (c x : Nibble) (kk : Byte) : xOf (packXkk c x kk) = x := by
  apply BitVec.eq_of_toNat_eq; rw [xOf_toNat, packXkk_toNat]; omega

@[simp] theorem kkOf_packXkk (c x : Nibble) (kk : Byte) : kkOf (packXkk c x kk) = kk := by
  apply BitVec.eq_of_toNat_eq; rw [kkOf_toNat, packXkk_toNat]; omega

@[simp] theorem classOf_packXyn (c x y n : Nibble) : classOf (packXyn c x y n) = c := by
  apply BitVec.eq_of_toNat_eq; rw [classOf_toNat, packXyn_toNat]; omega

@[simp] theorem xOf_packXyn (c x y n : Nibble) : xOf (packXyn c x y n) = x := by
  apply BitVec.eq_of_toNat_eq; rw [xOf_toNat, packXyn_toNat]; omega

@[simp] theorem yOf_packXyn (c x y n : Nibble) : yOf (packXyn c x y n) = y := by
  apply BitVec.eq_of_toNat_eq; rw [yOf_toNat, packXyn_toNat]; omega

@[simp] theorem nOf_packXyn (c x y n : Nibble) : nOf (packXyn c x y n) = n := by
  apply BitVec.eq_of_toNat_eq; rw [nOf_toNat, packXyn_toNat]; omega

/-! ### A word from its fields, and from its bytes -/

theorem packNnn_fields (w : Word) : packNnn (classOf w) (nnnOf w) = w := by
  have := w.isLt
  apply BitVec.eq_of_toNat_eq; rw [packNnn_toNat, classOf_toNat, nnnOf_toNat]; omega

theorem packXkk_fields (w : Word) : packXkk (classOf w) (xOf w) (kkOf w) = w := by
  have := w.isLt
  apply BitVec.eq_of_toNat_eq; rw [packXkk_toNat, classOf_toNat, xOf_toNat, kkOf_toNat]; omega

theorem packXyn_fields (w : Word) : packXyn (classOf w) (xOf w) (yOf w) (nOf w) = w := by
  have := w.isLt
  apply BitVec.eq_of_toNat_eq; rw [packXyn_toNat, classOf_toNat, xOf_toNat, yOf_toNat, nOf_toNat]; omega

@[simp] theorem wordOfBytes_hi_lo (w : Word) : wordOfBytes (hiByte w) (loByte w) = w := by
  apply BitVec.eq_of_toNat_eq; rw [wordOfBytes_toNat, hiByte_toNat, loByte_toNat]; omega

/-- Decoding looks at the first two bytes, big-endian (20_memory.md R52). -/
theorem decode_wordBytes (w : Word) (rest : List Byte) :
    decode (wordBytes w ++ rest) = (decodeWord w).map (fun i => (i, rest)) := by
  simp only [wordBytes, List.cons_append, List.nil_append, decode, wordOfBytes_hi_lo]
  cases decodeWord w <;> rfl

end Sys2Proof
end

