-- ==== Sys2Proof/Laws/State.lean ====
section
/-! SUPPORT. One lemma per field per update of State, true by rfl, so that no later proof unfolds a record update. -/

namespace Sys2Proof.Machine

/-! ### setV -/

@[simp] theorem setV_v (s : State) (x : Nibble) (b : Byte) : (setV s x b).v = s.v.set x.toNat b x.lt_sixteen := rfl
@[simp] theorem setV_i (s : State) (x : Nibble) (b : Byte) : (setV s x b).i = s.i := rfl
@[simp] theorem setV_pc (s : State) (x : Nibble) (b : Byte) : (setV s x b).pc = s.pc := rfl
@[simp] theorem setV_stack (s : State) (x : Nibble) (b : Byte) : (setV s x b).stack = s.stack := rfl
@[simp] theorem setV_mem (s : State) (x : Nibble) (b : Byte) : (setV s x b).mem = s.mem := rfl
@[simp] theorem setV_run (s : State) (x : Nibble) (b : Byte) : (setV s x b).run = s.run := rfl
@[simp] theorem setV_config (s : State) (x : Nibble) (b : Byte) : (setV s x b).config = s.config := rfl
@[simp] theorem setV_rnd (s : State) (x : Nibble) (b : Byte) : (setV s x b).rnd = s.rnd := rfl
@[simp] theorem setV_draws (s : State) (x : Nibble) (b : Byte) : (setV s x b).draws = s.draws := rfl
@[simp] theorem setV_event (s : State) (x : Nibble) (b : Byte) : (setV s x b).event = s.event := rfl

/-! ### setI -/

@[simp] theorem setI_v (s : State) (w : Word) : (setI s w).v = s.v := rfl
@[simp] theorem setI_i (s : State) (w : Word) : (setI s w).i = w := rfl
@[simp] theorem setI_pc (s : State) (w : Word) : (setI s w).pc = s.pc := rfl
@[simp] theorem setI_stack (s : State) (w : Word) : (setI s w).stack = s.stack := rfl
@[simp] theorem setI_mem (s : State) (w : Word) : (setI s w).mem = s.mem := rfl
@[simp] theorem setI_run (s : State) (w : Word) : (setI s w).run = s.run := rfl
@[simp] theorem setI_config (s : State) (w : Word) : (setI s w).config = s.config := rfl
@[simp] theorem setI_rnd (s : State) (w : Word) : (setI s w).rnd = s.rnd := rfl
@[simp] theorem setI_draws (s : State) (w : Word) : (setI s w).draws = s.draws := rfl
@[simp] theorem setI_event (s : State) (w : Word) : (setI s w).event = s.event := rfl

/-! ### setPc -/

@[simp] theorem setPc_v (s : State) (w : Word) : (setPc s w).v = s.v := rfl
@[simp] theorem setPc_i (s : State) (w : Word) : (setPc s w).i = s.i := rfl
@[simp] theorem setPc_pc (s : State) (w : Word) : (setPc s w).pc = w := rfl
@[simp] theorem setPc_stack (s : State) (w : Word) : (setPc s w).stack = s.stack := rfl
@[simp] theorem setPc_mem (s : State) (w : Word) : (setPc s w).mem = s.mem := rfl
@[simp] theorem setPc_run (s : State) (w : Word) : (setPc s w).run = s.run := rfl
@[simp] theorem setPc_config (s : State) (w : Word) : (setPc s w).config = s.config := rfl
@[simp] theorem setPc_rnd (s : State) (w : Word) : (setPc s w).rnd = s.rnd := rfl
@[simp] theorem setPc_draws (s : State) (w : Word) : (setPc s w).draws = s.draws := rfl
@[simp] theorem setPc_event (s : State) (w : Word) : (setPc s w).event = s.event := rfl

/-! ### setStack -/

@[simp] theorem setStack_v (s : State) (l : List Word) : (setStack s l).v = s.v := rfl
@[simp] theorem setStack_i (s : State) (l : List Word) : (setStack s l).i = s.i := rfl
@[simp] theorem setStack_pc (s : State) (l : List Word) : (setStack s l).pc = s.pc := rfl
@[simp] theorem setStack_stack (s : State) (l : List Word) : (setStack s l).stack = l := rfl
@[simp] theorem setStack_mem (s : State) (l : List Word) : (setStack s l).mem = s.mem := rfl
@[simp] theorem setStack_run (s : State) (l : List Word) : (setStack s l).run = s.run := rfl
@[simp] theorem setStack_config (s : State) (l : List Word) : (setStack s l).config = s.config := rfl
@[simp] theorem setStack_rnd (s : State) (l : List Word) : (setStack s l).rnd = s.rnd := rfl
@[simp] theorem setStack_draws (s : State) (l : List Word) : (setStack s l).draws = s.draws := rfl
@[simp] theorem setStack_event (s : State) (l : List Word) : (setStack s l).event = s.event := rfl

/-! ### setEvent -/

@[simp] theorem setEvent_v (s : State) (e : Option Event) : (setEvent s e).v = s.v := rfl
@[simp] theorem setEvent_i (s : State) (e : Option Event) : (setEvent s e).i = s.i := rfl
@[simp] theorem setEvent_pc (s : State) (e : Option Event) : (setEvent s e).pc = s.pc := rfl
@[simp] theorem setEvent_stack (s : State) (e : Option Event) : (setEvent s e).stack = s.stack := rfl
@[simp] theorem setEvent_mem (s : State) (e : Option Event) : (setEvent s e).mem = s.mem := rfl
@[simp] theorem setEvent_run (s : State) (e : Option Event) : (setEvent s e).run = s.run := rfl
@[simp] theorem setEvent_config (s : State) (e : Option Event) : (setEvent s e).config = s.config := rfl
@[simp] theorem setEvent_rnd (s : State) (e : Option Event) : (setEvent s e).rnd = s.rnd := rfl
@[simp] theorem setEvent_draws (s : State) (e : Option Event) : (setEvent s e).draws = s.draws := rfl
@[simp] theorem setEvent_event (s : State) (e : Option Event) : (setEvent s e).event = e := rfl

/-! ### setRun -/

@[simp] theorem setRun_v (s : State) (r : RunState) : (setRun s r).v = s.v := rfl
@[simp] theorem setRun_i (s : State) (r : RunState) : (setRun s r).i = s.i := rfl
@[simp] theorem setRun_pc (s : State) (r : RunState) : (setRun s r).pc = s.pc := rfl
@[simp] theorem setRun_stack (s : State) (r : RunState) : (setRun s r).stack = s.stack := rfl
@[simp] theorem setRun_mem (s : State) (r : RunState) : (setRun s r).mem = s.mem := rfl
@[simp] theorem setRun_run (s : State) (r : RunState) : (setRun s r).run = r := rfl
@[simp] theorem setRun_config (s : State) (r : RunState) : (setRun s r).config = s.config := rfl
@[simp] theorem setRun_rnd (s : State) (r : RunState) : (setRun s r).rnd = s.rnd := rfl
@[simp] theorem setRun_draws (s : State) (r : RunState) : (setRun s r).draws = s.draws := rfl
@[simp] theorem setRun_event (s : State) (r : RunState) : (setRun s r).event = s.event := rfl

/-! ### setRnd -/

@[simp] theorem setRnd_v (s : State) (b : Byte) : (setRnd s b).v = s.v := rfl
@[simp] theorem setRnd_i (s : State) (b : Byte) : (setRnd s b).i = s.i := rfl
@[simp] theorem setRnd_pc (s : State) (b : Byte) : (setRnd s b).pc = s.pc := rfl
@[simp] theorem setRnd_stack (s : State) (b : Byte) : (setRnd s b).stack = s.stack := rfl
@[simp] theorem setRnd_mem (s : State) (b : Byte) : (setRnd s b).mem = s.mem := rfl
@[simp] theorem setRnd_run (s : State) (b : Byte) : (setRnd s b).run = s.run := rfl
@[simp] theorem setRnd_config (s : State) (b : Byte) : (setRnd s b).config = s.config := rfl
@[simp] theorem setRnd_rnd (s : State) (b : Byte) : (setRnd s b).rnd = b := rfl
@[simp] theorem setRnd_draws (s : State) (b : Byte) : (setRnd s b).draws = s.draws := rfl
@[simp] theorem setRnd_event (s : State) (b : Byte) : (setRnd s b).event = s.event := rfl

/-! ### useRnd -/

@[simp] theorem useRnd_v (s : State) : (useRnd s).v = s.v := rfl
@[simp] theorem useRnd_i (s : State) : (useRnd s).i = s.i := rfl
@[simp] theorem useRnd_pc (s : State) : (useRnd s).pc = s.pc := rfl
@[simp] theorem useRnd_stack (s : State) : (useRnd s).stack = s.stack := rfl
@[simp] theorem useRnd_mem (s : State) : (useRnd s).mem = s.mem := rfl
@[simp] theorem useRnd_run (s : State) : (useRnd s).run = s.run := rfl
@[simp] theorem useRnd_config (s : State) : (useRnd s).config = s.config := rfl
@[simp] theorem useRnd_rnd (s : State) : (useRnd s).rnd = Config.randomByte (s.draws + 1) := rfl
@[simp] theorem useRnd_draws (s : State) : (useRnd s).draws = s.draws + 1 := rfl
@[simp] theorem useRnd_event (s : State) : (useRnd s).event = s.event := rfl

/-! ### haltedStep -/

@[simp] theorem haltedStep_v (s : State) : (haltedStep s).v = s.v := rfl
@[simp] theorem haltedStep_i (s : State) : (haltedStep s).i = s.i := rfl
@[simp] theorem haltedStep_pc (s : State) : (haltedStep s).pc = s.pc := rfl
@[simp] theorem haltedStep_stack (s : State) : (haltedStep s).stack = s.stack := rfl
@[simp] theorem haltedStep_mem (s : State) : (haltedStep s).mem = s.mem := rfl
@[simp] theorem haltedStep_run (s : State) : (haltedStep s).run = s.run := rfl
@[simp] theorem haltedStep_config (s : State) : (haltedStep s).config = s.config := rfl
@[simp] theorem haltedStep_rnd (s : State) : (haltedStep s).rnd = s.rnd := rfl
@[simp] theorem haltedStep_draws (s : State) : (haltedStep s).draws = s.draws := rfl
@[simp] theorem haltedStep_event (s : State) : (haltedStep s).event = none := rfl

/-! ### haltEntry -/

@[simp] theorem haltEntry_v (s : State) (k : HaltKind) (op : Option Word) : (haltEntry s k op).v = s.v := rfl
@[simp] theorem haltEntry_i (s : State) (k : HaltKind) (op : Option Word) : (haltEntry s k op).i = s.i := rfl
@[simp] theorem haltEntry_pc (s : State) (k : HaltKind) (op : Option Word) : (haltEntry s k op).pc = s.pc := rfl
@[simp] theorem haltEntry_stack (s : State) (k : HaltKind) (op : Option Word) : (haltEntry s k op).stack = s.stack := rfl
@[simp] theorem haltEntry_mem (s : State) (k : HaltKind) (op : Option Word) : (haltEntry s k op).mem = s.mem := rfl
@[simp] theorem haltEntry_run (s : State) (k : HaltKind) (op : Option Word) : (haltEntry s k op).run = .halted { kind := k, haltPc := s.pc, op := op } := rfl
@[simp] theorem haltEntry_config (s : State) (k : HaltKind) (op : Option Word) : (haltEntry s k op).config = s.config := rfl
@[simp] theorem haltEntry_rnd (s : State) (k : HaltKind) (op : Option Word) : (haltEntry s k op).rnd = s.rnd := rfl
@[simp] theorem haltEntry_draws (s : State) (k : HaltKind) (op : Option Word) : (haltEntry s k op).draws = s.draws := rfl
@[simp] theorem haltEntry_event (s : State) (k : HaltKind) (op : Option Word) : (haltEntry s k op).event = none := rfl

/-! ### hostReset -/

@[simp] theorem hostReset_v (s : State) : (hostReset s).v = Vector.replicate 16 0x00 := rfl
@[simp] theorem hostReset_i (s : State) : (hostReset s).i = 0x0000 := rfl
@[simp] theorem hostReset_pc (s : State) : (hostReset s).pc = 0x0200 := rfl
@[simp] theorem hostReset_stack (s : State) : (hostReset s).stack = [] := rfl
@[simp] theorem hostReset_mem (s : State) : (hostReset s).mem = [] := rfl
@[simp] theorem hostReset_run (s : State) : (hostReset s).run = .running := rfl
@[simp] theorem hostReset_config (s : State) : (hostReset s).config = s.config := rfl
@[simp] theorem hostReset_rnd (s : State) : (hostReset s).rnd = s.rnd := rfl
@[simp] theorem hostReset_draws (s : State) : (hostReset s).draws = s.draws := rfl
@[simp] theorem hostReset_event (s : State) : (hostReset s).event = none := rfl

/-! ### the program load and the host's placed word write memory only -/

@[simp] theorem loadProgram_v (image : List Byte) (s : State) : (loadProgram image s).v = s.v := rfl
@[simp] theorem loadProgram_i (image : List Byte) (s : State) : (loadProgram image s).i = s.i := rfl
@[simp] theorem loadProgram_pc (image : List Byte) (s : State) : (loadProgram image s).pc = s.pc := rfl
@[simp] theorem loadProgram_stack (image : List Byte) (s : State) : (loadProgram image s).stack = s.stack := rfl
@[simp] theorem loadProgram_run (image : List Byte) (s : State) : (loadProgram image s).run = s.run := rfl
@[simp] theorem loadProgram_config (image : List Byte) (s : State) : (loadProgram image s).config = s.config := rfl
@[simp] theorem loadProgram_rnd (image : List Byte) (s : State) : (loadProgram image s).rnd = s.rnd := rfl
@[simp] theorem loadProgram_draws (image : List Byte) (s : State) : (loadProgram image s).draws = s.draws := rfl
@[simp] theorem loadProgram_event (image : List Byte) (s : State) : (loadProgram image s).event = s.event := rfl

/-! ### reset -/

@[simp] theorem resetWith_v (c : Config) : (State.resetWith c).v = Vector.replicate 16 0x00 := rfl
@[simp] theorem resetWith_i (c : Config) : (State.resetWith c).i = 0x0000 := rfl
@[simp] theorem resetWith_pc (c : Config) : (State.resetWith c).pc = 0x0200 := rfl
@[simp] theorem resetWith_stack (c : Config) : (State.resetWith c).stack = [] := rfl
@[simp] theorem resetWith_mem (c : Config) : (State.resetWith c).mem = [] := rfl
@[simp] theorem resetWith_run (c : Config) : (State.resetWith c).run = .running := rfl
@[simp] theorem resetWith_config (c : Config) : (State.resetWith c).config = c := rfl
@[simp] theorem resetWith_draws (c : Config) : (State.resetWith c).draws = 0 := rfl
@[simp] theorem resetWith_event (c : Config) : (State.resetWith c).event = none := rfl

/-! ### the register file: a read after a write -/

theorem readV_setV (s : State) (x r : Nibble) (b : Byte) :
    readV (setV s x b) r = if r = x then b else readV s r := by
  by_cases h : r = x
  · subst h; simp [readV]
  · have hx : x.toNat ≠ r.toNat := fun e => h (BitVec.eq_of_toNat_eq e.symm)
    simp [readV, h, hx]

@[simp] theorem readV_setV_same (s : State) (x : Nibble) (b : Byte) : readV (setV s x b) x = b := by
  simp [readV_setV]

theorem readV_setV_other (s : State) {x r : Nibble} (b : Byte) (h : r ≠ x) : readV (setV s x b) r = readV s r := by
  simp [readV_setV, h]

@[simp] theorem readV_setI (s : State) (w : Word) (x : Nibble) : readV (setI s w) x = readV s x := rfl
@[simp] theorem readV_setPc (s : State) (w : Word) (x : Nibble) : readV (setPc s w) x = readV s x := rfl
@[simp] theorem readV_setStack (s : State) (l : List Word) (x : Nibble) : readV (setStack s l) x = readV s x := rfl
@[simp] theorem readV_setEvent (s : State) (e : Option Event) (x : Nibble) : readV (setEvent s e) x = readV s x := rfl
@[simp] theorem readV_setRun (s : State) (r : RunState) (x : Nibble) : readV (setRun s r) x = readV s x := rfl
@[simp] theorem readV_setRnd (s : State) (b : Byte) (x : Nibble) : readV (setRnd s b) x = readV s x := rfl
@[simp] theorem readV_useRnd (s : State) (x : Nibble) : readV (useRnd s) x = readV s x := rfl
@[simp] theorem readV_haltedStep (s : State) (x : Nibble) : readV (haltedStep s) x = readV s x := rfl
@[simp] theorem readV_haltEntry (s : State) (k : HaltKind) (op : Option Word) (x : Nibble) : readV (haltEntry s k op) x = readV s x := rfl

@[simp] theorem readByte_setV (s : State) (x : Nibble) (b : Byte) (addr : Nat) : readByte (setV s x b) addr = readByte s addr := rfl
@[simp] theorem readByte_setI (s : State) (w : Word) (addr : Nat) : readByte (setI s w) addr = readByte s addr := rfl
@[simp] theorem readByte_setPc (s : State) (w : Word) (addr : Nat) : readByte (setPc s w) addr = readByte s addr := rfl
@[simp] theorem readByte_setStack (s : State) (l : List Word) (addr : Nat) : readByte (setStack s l) addr = readByte s addr := rfl
@[simp] theorem readByte_setEvent (s : State) (e : Option Event) (addr : Nat) : readByte (setEvent s e) addr = readByte s addr := rfl
@[simp] theorem readByte_setRun (s : State) (r : RunState) (addr : Nat) : readByte (setRun s r) addr = readByte s addr := rfl
@[simp] theorem readByte_setRnd (s : State) (b : Byte) (addr : Nat) : readByte (setRnd s b) addr = readByte s addr := rfl
@[simp] theorem readByte_useRnd (s : State) (addr : Nat) : readByte (useRnd s) addr = readByte s addr := rfl
@[simp] theorem readByte_haltedStep (s : State) (addr : Nat) : readByte (haltedStep s) addr = readByte s addr := rfl
@[simp] theorem readByte_haltEntry (s : State) (k : HaltKind) (op : Option Word) (addr : Nat) : readByte (haltEntry s k op) addr = readByte s addr := rfl

@[simp] theorem readV_resetWith (c : Config) (x : Nibble) : readV (State.resetWith c) x = 0x00 := by
  simp [readV]

end Sys2Proof.Machine
end

