-- ==== Sys2Proof/Laws/Memory.lean ====
section
/-! SUPPORT. Memory: a read after a write, and every memory operation keeps the canonical form. -/

namespace Sys2Proof.Machine

theorem Memory.read_cons (c : Config) (a k : Nat) (b : Byte) (rest : Memory)
    (h : Memory.read c rest a = Memory.unlisted c a) :
    Memory.read c (Memory.cons c a b rest) k = if k = a then b else Memory.read c rest k := by
  by_cases hk : k = a
  · subst hk
    by_cases hb : b = Memory.unlisted c k <;> simp [Memory.cons, hb, Memory.read, h]
  · by_cases hb : b = Memory.unlisted c a <;> simp [Memory.cons, hb, Memory.read, hk, Ne.symm hk]

theorem Memory.read_below (c : Config) :
    ∀ (m : Memory) (lo a : Nat), Memory.wfFrom c lo m = true → a < lo → Memory.read c m a = Memory.unlisted c a
  | [], _, _, _, _ => rfl
  | (k, b) :: rest, lo, a, h, ha => by
    simp only [Memory.wfFrom, Bool.and_eq_true, decide_eq_true_eq] at h
    have hk : k ≠ a := by omega
    simp only [Memory.read, if_neg hk]
    exact Memory.read_below c rest (k + 1) a h.2 (by omega)

/-- Reading after a write gives the value written there and the old value everywhere else. -/
theorem Memory.read_write (c : Config) :
    ∀ (m : Memory) (lo a k : Nat) (b : Byte), Memory.wfFrom c lo m = true →
      Memory.read c (Memory.write c m a b) k = if k = a then b else Memory.read c m k
  | [], _, a, k, b, _ => Memory.read_cons c a k b [] rfl
  | (j, d) :: rest, lo, a, k, b, h => by
    have hw := h
    simp only [Memory.wfFrom, Bool.and_eq_true, decide_eq_true_eq] at h
    obtain ⟨⟨⟨hlo, -⟩, -⟩, hrest⟩ := h
    by_cases haj : a < j
    · simp only [Memory.write, if_pos haj]
      refine Memory.read_cons c a k b _ ?_
      have hj : j ≠ a := by omega
      simp only [Memory.read, if_neg hj]
      exact Memory.read_below c rest (j + 1) a hrest (by omega)
    · by_cases hae : a = j
      · subst hae
        simp only [Memory.write, if_neg haj, if_true]
        rw [Memory.read_cons c a k b rest (Memory.read_below c rest (a + 1) a hrest (by omega))]
        by_cases hk : k = a
        · simp [hk]
        · simp [hk, Memory.read, Ne.symm hk]
      · simp only [Memory.write, if_neg haj, if_neg hae, Memory.read]
        rw [Memory.read_write c rest (j + 1) a k b hrest]
        by_cases hj : j = k
        · have hk : k ≠ a := by omega
          simp [hj, hk]
        · simp [hj]

theorem Memory.wfFrom_mono (c : Config) {lo lo' : Nat} (h : lo' ≤ lo) :
    ∀ m : Memory, Memory.wfFrom c lo m = true → Memory.wfFrom c lo' m = true
  | [], _ => rfl
  | (k, b) :: rest, hm => by
    simp only [Memory.wfFrom, Bool.and_eq_true, decide_eq_true_eq] at hm ⊢
    exact ⟨⟨⟨by omega, hm.1.1.2⟩, hm.1.2⟩, hm.2⟩

theorem Memory.wfFrom_cons (c : Config) (lo a : Nat) (b : Byte) (rest : Memory) (hlo : lo ≤ a) (ha : a < 0x1000)
    (h : Memory.wfFrom c (a + 1) rest = true) : Memory.wfFrom c lo (Memory.cons c a b rest) = true := by
  by_cases hb : b = Memory.unlisted c a
  · simpa [Memory.cons, hb] using Memory.wfFrom_mono c (by omega) rest h
  · simp [Memory.cons, hb, Memory.wfFrom, hlo, ha, h]

/-- A write inside the address space keeps the canonical form. -/
theorem Memory.wfFrom_write (c : Config) :
    ∀ (m : Memory) (lo a : Nat) (b : Byte), Memory.wfFrom c lo m = true → lo ≤ a → a < 0x1000 →
      Memory.wfFrom c lo (Memory.write c m a b) = true
  | [], lo, a, b, _, hlo, ha => Memory.wfFrom_cons c lo a b [] hlo ha rfl
  | (k, d) :: rest, lo, a, b, h, hlo, ha => by
    have hw := h
    simp only [Memory.wfFrom, Bool.and_eq_true, decide_eq_true_eq] at h
    obtain ⟨⟨⟨h1, h2⟩, h3⟩, hrest⟩ := h
    by_cases hak : a < k
    · simp only [Memory.write, if_pos hak]
      refine Memory.wfFrom_cons c lo a b _ hlo ha ?_
      simp only [Memory.wfFrom, Bool.and_eq_true, decide_eq_true_eq]
      exact ⟨⟨⟨hak, h2⟩, h3⟩, hrest⟩
    · by_cases hae : a = k
      · subst hae
        simp only [Memory.write, if_neg hak, if_true]
        exact Memory.wfFrom_cons c lo a b rest hlo ha hrest
      · simp only [Memory.write, if_neg hak, if_neg hae, Memory.wfFrom, Bool.and_eq_true, decide_eq_true_eq]
        exact ⟨⟨⟨h1, h2⟩, h3⟩, Memory.wfFrom_write c rest (k + 1) a b hrest (by omega) ha⟩

theorem Memory.wf_write (c : Config) (m : Memory) (a : Nat) (b : Byte) (h : Memory.wf c m = true) (ha : a < 0x1000) :
    Memory.wf c (Memory.write c m a b) = true :=
  Memory.wfFrom_write c m 0 a b h (Nat.zero_le a) ha

/-- Consecutive stores inside the address space keep the canonical form. -/
theorem Memory.wf_writeAll (c : Config) :
    ∀ (bs : List Byte) (m : Memory) (a : Nat), Memory.wf c m = true → a + bs.length ≤ 0x1000 →
      Memory.wf c (Memory.writeAll c m a bs) = true
  | [], _, _, h, _ => h
  | b :: rest, m, a, h, ha => by
    simp only [List.length_cons] at ha
    exact Memory.wf_writeAll c rest _ (a + 1) (Memory.wf_write c m a b h (by omega)) (by omega)

/-- What every address reads as after consecutive stores: the stored byte inside, the old byte outside. -/
theorem Memory.read_writeAll (c : Config) :
    ∀ (bs : List Byte) (m : Memory) (a k : Nat), Memory.wf c m = true → a + bs.length ≤ 0x1000 →
      Memory.read c (Memory.writeAll c m a bs) k =
        if a ≤ k then (bs[k - a]?).getD (Memory.read c m k) else Memory.read c m k
  | [], m, a, k, _, _ => by simp [Memory.writeAll]
  | b :: rest, m, a, k, h, ha => by
    simp only [List.length_cons] at ha
    have hw := Memory.wf_write c m a b h (by omega)
    simp only [Memory.writeAll]
    rw [Memory.read_writeAll c rest _ (a + 1) k hw (by omega), Memory.read_write c m 0 a k b h]
    by_cases h1 : k = a
    · subst h1
      have : ¬ (k + 1 ≤ k) := by omega
      simp [this]
    · by_cases h2 : a + 1 ≤ k
      · have h3 : a ≤ k := by omega
        obtain ⟨j, rfl⟩ : ∃ j, k = a + 1 + j := ⟨k - (a + 1), by omega⟩
        have e1 : a + 1 + j - (a + 1) = j := by omega
        have e2 : a + 1 + j - a = j + 1 := by omega
        simp [h1, h2, h3, e1, e2]
      · have h3 : ¬ (a ≤ k) := by omega
        simp [h1, h2, h3]

/-- The state after one byte store through the port, in canonical form (20_memory.md R51). -/
theorem memWrite_wf {s t : State} {a : Word} {b : Byte} (h : memWrite s a b = .ok t)
    (hw : Memory.wf s.config s.mem = true) : Memory.wf t.config t.mem = true := by
  unfold memWrite at h
  split at h
  · cases h
  · next hlt =>
    cases h
    exact Memory.wf_write _ _ _ _ hw (by omega)

/-- The program load keeps the canonical form (20_memory.md R58). -/
theorem loadProgram_wf (image : List Byte) (s : State) (hw : Memory.wf s.config s.mem = true) :
    Memory.wf (loadProgram image s).config (loadProgram image s).mem = true := by
  refine Memory.wf_writeAll _ _ _ _ hw ?_
  simp only [List.length_take]
  omega

/-- Placing the next instruction word keeps the canonical form. -/
theorem placeWord_wf (s : State) (w : Word) (hw : Memory.wf s.config s.mem = true) :
    Memory.wf (placeWord s w).config (placeWord s w).mem = true := by
  unfold placeWord
  split
  · exact hw
  · refine Memory.wf_writeAll _ _ _ _ hw ?_
    simp only [wordBytes, List.length_cons, List.length_nil]
    omega

theorem reset_wf (c : Config) : Memory.wf c (State.resetWith c).mem = true := rfl

end Sys2Proof.Machine
end

