-- ==== Sys2Proof/Laws/Ops.lean ====
section
/-! SUPPORT. One specification per shared operation: what it can answer, cited instead of unfolded. -/

namespace Sys2Proof.Machine

/-! ### memory ports and the fetch (20_memory.md R51; 40_engine.md R105) -/

theorem memRead_ok {s : State} {a : Word} (h : a.toNat ≤ 0x0FFF) : memRead s a = .ok (readByte s a.toNat) :=
  if_neg (by omega)

theorem memRead_error {s : State} {a : Word} (h : 0x0FFF < a.toNat) : memRead s a = .error (.outOfBounds a.toNat) :=
  if_pos h

theorem pc_succ_toNat {pc : Word} (h : pc.toNat ≤ 0x0FFE) : (pc + 1).toNat = pc.toNat + 1 := by
  rw [BitVec.toNat_add]
  have : (1 : Word).toNat = 1 := rfl
  omega

/-- The fetch succeeds up to pc = 0x0FFE, with the two bytes there (R105). -/
theorem fetch_ok {s : State} (h : s.pc.toNat ≤ 0x0FFE) :
    fetch s = .ok (wordOfBytes (readByte s s.pc.toNat) (readByte s (s.pc.toNat + 1))) := by
  have h1 := pc_succ_toNat h
  simp only [fetch, memRead_ok (s := s) (show s.pc.toNat ≤ 0x0FFF by omega),
    memRead_ok (s := s) (show (s.pc + 1).toNat ≤ 0x0FFF by omega), h1]

/-- The fetch fails above pc = 0x0FFE (R105). -/
theorem fetch_error {s : State} (h : 0x0FFE < s.pc.toNat) : ∃ f, fetch s = .error f := by
  by_cases h2 : 0x0FFF < s.pc.toNat
  · exact ⟨_, by simp only [fetch, memRead_error (s := s) h2]; rfl⟩
  · have h3 : s.pc.toNat = 0x0FFF := by omega
    have h4 : (s.pc + 1).toNat = 0x1000 := by
      rw [BitVec.toNat_add, h3]; rfl
    exact ⟨.outOfBounds (s.pc + 1).toNat, by
      simp only [fetch, memRead_ok (s := s) (show s.pc.toNat ≤ 0x0FFF by omega),
        memRead_error (s := s) (show 0x0FFF < (s.pc + 1).toNat by omega)]⟩

theorem fetch_ok_iff (s : State) : (∃ w, fetch s = .ok w) ↔ s.pc.toNat ≤ 0x0FFE := by
  constructor
  · rintro ⟨w, hw⟩
    by_contra h
    obtain ⟨f, hf⟩ := fetch_error (s := s) (by omega)
    rw [hf] at hw
    cases hw
  · exact fun h => ⟨_, fetch_ok h⟩

/-! ### call_stack_16deep (10_state.md R31, R32) -/

theorem push_cases (s : State) (w : Word) :
    (16 ≤ s.stack.length ∧ push s w = .error .stackOverflow) ∨
    (s.stack.length < 16 ∧ push s w = .ok (s.stack ++ [w])) := by
  by_cases h : 16 ≤ s.stack.length
  · exact .inl ⟨h, if_pos h⟩
  · exact .inr ⟨by omega, if_neg h⟩

theorem pop_cases (s : State) :
    (s.stack = [] ∧ pop s = .error .stackUnderflow) ∨
    (∃ w rest, s.stack = rest ++ [w] ∧ pop s = .ok (w, rest)) := by
  rcases List.eq_nil_or_concat' s.stack with h | ⟨rest, w, h⟩
  · exact .inl ⟨h, by simp [pop, h]⟩
  · exact .inr ⟨w, rest, h, by simp [pop, h]⟩

/-! ### commit (40_engine.md R109) -/

/-- What the writes of a cycle never touch: the pc, memory, the parameters, the run state, the event. -/
theorem applyWrites_kept (ws : List Write) : ∀ s : State,
    (applyWrites s ws).pc = s.pc ∧ (applyWrites s ws).mem = s.mem ∧ (applyWrites s ws).config = s.config ∧
    (applyWrites s ws).run = s.run ∧ (applyWrites s ws).event = s.event := by
  induction ws with
  | nil => exact fun s => ⟨rfl, rfl, rfl, rfl, rfl⟩
  | cons w ws ih =>
    intro s
    have := ih (applyWrite s w)
    cases w <;> simpa [applyWrites, applyWrite] using this

/-- The state a completing cycle answers. -/
theorem complete_eq {s t : State} {ws : List Write} {n : NextPc} {ev : Option Event}
    (h : complete s ws n ev = .next t) :
    t = setEvent (setPc (applyWrites s ws) (nextPc s n)) ev := by
  simp only [complete, Host.Outcome.next.injEq] at h
  exact h.symm

/-- What a completing cycle keeps, whatever it writes: no instruction writes memory (20_memory.md R56). -/
theorem complete_kept {s t : State} {ws : List Write} {n : NextPc} {ev : Option Event}
    (h : complete s ws n ev = .next t) :
    t.pc = nextPc s n ∧ t.mem = s.mem ∧ t.config = s.config ∧ t.run = s.run ∧ t.event = ev := by
  obtain ⟨-, h2, h3, h4, -⟩ := applyWrites_kept ws s
  rw [complete_eq h]
  exact ⟨rfl, h2, h3, h4, rfl⟩

/-! ### the ALU's writes: port F, then port W (10_state.md R22) -/

/-- The registers after an ALU instruction: the result in `V[x]`, the flag in VF when `x` is not VF and the
function writes it, every other register as before. -/
theorem readV_aluWrites (s : State) (x r : Nibble) (o : AluOut) (res : Byte) (hres : o.res = some res) :
    readV (applyWrites s (aluWrites x o)) r =
      if r = x then res else if r = 0xF then o.flag.getD (readV s r) else readV s r := by
  obtain ⟨ores, oflag, oeq⟩ := o
  subst hres
  cases oflag with
  | none => simp [aluWrites, applyWrites, applyWrite, readV_setV]
  | some b => simp [aluWrites, applyWrites, applyWrite, readV_setV]

/-- The ALU's writes reach only the register file. -/
theorem aluWrites_kept (s : State) (x : Nibble) (o : AluOut) :
    (applyWrites s (aluWrites x o)).i = s.i ∧ (applyWrites s (aluWrites x o)).stack = s.stack ∧
    (applyWrites s (aluWrites x o)).rnd = s.rnd ∧ (applyWrites s (aluWrites x o)).draws = s.draws := by
  obtain ⟨ores, oflag, oeq⟩ := o
  cases ores <;> cases oflag <;> exact ⟨rfl, rfl, rfl, rfl⟩

/-! ### zero extension (30_encoding.md R72) -/

theorem zextAddr_toNat (nnn : Addr) : (zextAddr nnn).toNat = nnn.toNat := by
  have := nnn.isLt
  simp only [zextAddr, BitVec.toNat_setWidth]
  omega

theorem zextByte_toNat (b : Byte) : (zextByte b).toNat = b.toNat := by
  have := b.isLt
  simp only [zextByte, BitVec.toNat_setWidth]
  omega

/-! ### slots (46_collaborator_slots.md R200, R213) -/

/-- A slot completes under the default policy and is refused under the other. -/
theorem completeSlot_cases (s : State) (k : SlotKind) (w : Word) :
    (s.config.slotPolicy = .emitAndAdvance ∧
      completeSlot s k w = complete s [] .seq (some (.slot (slotRecord s k w)))) ∨
    (s.config.slotPolicy = .refuse ∧ completeSlot s k w = .refused (.slotRefused w)) := by
  cases h : s.config.slotPolicy
  · exact .inl ⟨rfl, by simp only [completeSlot, h]⟩
  · exact .inr ⟨rfl, by simp only [completeSlot, h]⟩

end Sys2Proof.Machine
end

