-- ==== Sys2Proof/Laws/PerInstr.lean ====
section
/-! SUPPORT. Masking a packed word field by field, and per instruction: its word matches its row's mask and match
bits of the opcode map (30_encoding.md R73, opcode_table.json). -/

namespace Sys2Proof

theorem packNnn_and (c d : Nibble) (a b : Addr) : packNnn c a &&& packNnn d b = packNnn (c &&& d) (a &&& b) := by
  have h := @BitVec.and_append 4 12 c d a b
  exact h

theorem packXkk_and (c d x y : Nibble) (a b : Byte) :
    packXkk c x a &&& packXkk d y b = packXkk (c &&& d) (x &&& y) (a &&& b) := by
  have h : ((x ++ a : Addr) &&& (y ++ b : Addr)) = ((x &&& y) ++ (a &&& b) : Addr) := by
    have h := @BitVec.and_append 4 8 x y a b
    exact h
  rw [packXkk, packXkk, packNnn_and, h, packXkk]

theorem packXyn_and (c d x z y t n m : Nibble) :
    packXyn c x y n &&& packXyn d z t m = packXyn (c &&& d) (x &&& z) (y &&& t) (n &&& m) := by
  have h : ((y ++ n : Byte) &&& (t ++ m : Byte)) = ((y &&& t) ++ (n &&& m) : Byte) := by
    have h := @BitVec.and_append 4 4 y t n m
    exact h
  rw [packXyn, packXyn, packXkk_and, h, packXyn]

theorem nibble_and_ones (c : Nibble) : c &&& 0xF = c := BitVec.and_allOnes

theorem nibble_and_zero (c : Nibble) : c &&& 0x0 = 0x0 := BitVec.and_zero

theorem byte_and_ones (b : Byte) : b &&& 0xFF = b := BitVec.and_allOnes

/-- The mask 0xF000 keeps the class. -/
theorem and_mask_class (w : Word) : w &&& 0xF000 = packXyn (classOf w) 0x0 0x0 0x0 := by
  have h : (0xF000 : Word) = packXyn 0xF 0x0 0x0 0x0 := rfl
  conv_lhs => rw [← packXyn_fields w, h, packXyn_and]
  simp only [nibble_and_ones, nibble_and_zero]

/-- The mask 0xF00F keeps the class and `n`. -/
theorem and_mask_class_n (w : Word) : w &&& 0xF00F = packXyn (classOf w) 0x0 0x0 (nOf w) := by
  have h : (0xF00F : Word) = packXyn 0xF 0x0 0x0 0xF := rfl
  conv_lhs => rw [← packXyn_fields w, h, packXyn_and]
  simp only [nibble_and_ones, nibble_and_zero]

/-- The mask 0xF0FF keeps the class and `kk`. -/
theorem and_mask_class_kk (w : Word) : w &&& 0xF0FF = packXkk (classOf w) 0x0 (kkOf w) := by
  have h : (0xF0FF : Word) = packXkk 0xF 0x0 0xFF := rfl
  conv_lhs => rw [← packXkk_fields w, h, packXkk_and]
  simp only [nibble_and_ones, nibble_and_zero, byte_and_ones]

theorem nnn_row (c : Nibble) (nnn : Addr) : packNnn c nnn &&& 0xF000 = packXyn c 0x0 0x0 0x0 := by
  rw [and_mask_class, classOf_packNnn]

theorem xkk_row (c x : Nibble) (kk : Byte) : packXkk c x kk &&& 0xF000 = packXyn c 0x0 0x0 0x0 := by
  rw [and_mask_class, classOf_packXkk]

theorem xyn_row (c x y n : Nibble) : packXyn c x y n &&& 0xF000 = packXyn c 0x0 0x0 0x0 := by
  rw [and_mask_class, classOf_packXyn]

theorem xy_row (c x y n : Nibble) : packXyn c x y n &&& 0xF00F = packXyn c 0x0 0x0 n := by
  rw [and_mask_class_n, classOf_packXyn, nOf_packXyn]

theorem x_row (c x : Nibble) (kk : Byte) : packXkk c x kk &&& 0xF0FF = packXkk c 0x0 kk := by
  rw [and_mask_class_kk, classOf_packXkk, kkOf_packXkk]

/-- The statement of the family: the instruction's word is in the instruction's row. -/
def Laws.RowMatch.Statement (i : Instr) : Prop := encode i &&& i.row.mask = i.row.bits

theorem Laws.RowMatch.cls : Laws.RowMatch.Statement .cls := rfl

theorem Laws.RowMatch.ret : Laws.RowMatch.Statement .ret := rfl

theorem Laws.RowMatch.jp (nnn : Addr) : Laws.RowMatch.Statement (.jp nnn) := nnn_row 0x1 nnn

theorem Laws.RowMatch.call (nnn : Addr) : Laws.RowMatch.Statement (.call nnn) := nnn_row 0x2 nnn

theorem Laws.RowMatch.seImm (x : Nibble) (kk : Byte) : Laws.RowMatch.Statement (.seImm x kk) := xkk_row 0x3 x kk

theorem Laws.RowMatch.sneImm (x : Nibble) (kk : Byte) : Laws.RowMatch.Statement (.sneImm x kk) := xkk_row 0x4 x kk

theorem Laws.RowMatch.seReg (x y : Nibble) : Laws.RowMatch.Statement (.seReg x y) := xy_row 0x5 x y 0x0

theorem Laws.RowMatch.ldImm (x : Nibble) (kk : Byte) : Laws.RowMatch.Statement (.ldImm x kk) := xkk_row 0x6 x kk

theorem Laws.RowMatch.addImm (x : Nibble) (kk : Byte) : Laws.RowMatch.Statement (.addImm x kk) := xkk_row 0x7 x kk

theorem Laws.RowMatch.ldReg (x y : Nibble) : Laws.RowMatch.Statement (.ldReg x y) := xy_row 0x8 x y 0x0

theorem Laws.RowMatch.orReg (x y : Nibble) : Laws.RowMatch.Statement (.orReg x y) := xy_row 0x8 x y 0x1

theorem Laws.RowMatch.andReg (x y : Nibble) : Laws.RowMatch.Statement (.andReg x y) := xy_row 0x8 x y 0x2

theorem Laws.RowMatch.xorReg (x y : Nibble) : Laws.RowMatch.Statement (.xorReg x y) := xy_row 0x8 x y 0x3

theorem Laws.RowMatch.addReg (x y : Nibble) : Laws.RowMatch.Statement (.addReg x y) := xy_row 0x8 x y 0x4

theorem Laws.RowMatch.subReg (x y : Nibble) : Laws.RowMatch.Statement (.subReg x y) := xy_row 0x8 x y 0x5

theorem Laws.RowMatch.shrReg (x y : Nibble) : Laws.RowMatch.Statement (.shrReg x y) := xy_row 0x8 x y 0x6

theorem Laws.RowMatch.subnReg (x y : Nibble) : Laws.RowMatch.Statement (.subnReg x y) := xy_row 0x8 x y 0x7

theorem Laws.RowMatch.shlReg (x y : Nibble) : Laws.RowMatch.Statement (.shlReg x y) := xy_row 0x8 x y 0xE

theorem Laws.RowMatch.sneReg (x y : Nibble) : Laws.RowMatch.Statement (.sneReg x y) := xy_row 0x9 x y 0x0

theorem Laws.RowMatch.ldI (nnn : Addr) : Laws.RowMatch.Statement (.ldI nnn) := nnn_row 0xA nnn

theorem Laws.RowMatch.jpV0 (nnn : Addr) : Laws.RowMatch.Statement (.jpV0 nnn) := nnn_row 0xB nnn

theorem Laws.RowMatch.rnd (x : Nibble) (kk : Byte) : Laws.RowMatch.Statement (.rnd x kk) := xkk_row 0xC x kk

theorem Laws.RowMatch.drw (x y n : Nibble) : Laws.RowMatch.Statement (.drw x y n) := xyn_row 0xD x y n

theorem Laws.RowMatch.skp (x : Nibble) : Laws.RowMatch.Statement (.skp x) := x_row 0xE x 0x9E

theorem Laws.RowMatch.sknp (x : Nibble) : Laws.RowMatch.Statement (.sknp x) := x_row 0xE x 0xA1

theorem Laws.RowMatch.ldVxDt (x : Nibble) : Laws.RowMatch.Statement (.ldVxDt x) := x_row 0xF x 0x07

theorem Laws.RowMatch.ldVxK (x : Nibble) : Laws.RowMatch.Statement (.ldVxK x) := x_row 0xF x 0x0A

theorem Laws.RowMatch.ldDtVx (x : Nibble) : Laws.RowMatch.Statement (.ldDtVx x) := x_row 0xF x 0x15

theorem Laws.RowMatch.ldStVx (x : Nibble) : Laws.RowMatch.Statement (.ldStVx x) := x_row 0xF x 0x18

theorem Laws.RowMatch.addIVx (x : Nibble) : Laws.RowMatch.Statement (.addIVx x) := x_row 0xF x 0x1E

theorem Laws.RowMatch.ldFVx (x : Nibble) : Laws.RowMatch.Statement (.ldFVx x) := x_row 0xF x 0x29

theorem Laws.RowMatch.ldBVx (x : Nibble) : Laws.RowMatch.Statement (.ldBVx x) := x_row 0xF x 0x33

theorem Laws.RowMatch.ldMemVx (x : Nibble) : Laws.RowMatch.Statement (.ldMemVx x) := x_row 0xF x 0x55

theorem Laws.RowMatch.ldVxMem (x : Nibble) : Laws.RowMatch.Statement (.ldVxMem x) := x_row 0xF x 0x65

end Sys2Proof
end

