-- ==== Sys2Proof/Laws/Step.lean ====
section
/-! SUPPORT. What `exec` and `step` can answer, said once: an inversion for each, and the specification of each
shared way a cycle completes. -/

namespace Sys2Proof.Machine

/-! ### the pc (40_engine.md R107) -/

theorem pc_add2_toNat {pc : Word} (h : pc.toNat ≤ 0x0FFE) : (pc + 2).toNat = pc.toNat + 2 := by
  rw [BitVec.toNat_add]
  have : (2 : Word).toNat = 2 := rfl
  omega

theorem pc_add4_toNat {pc : Word} (h : pc.toNat ≤ 0x0FFE) : (pc + 4).toNat = pc.toNat + 4 := by
  rw [BitVec.toNat_add]
  have : (4 : Word).toNat = 4 := rfl
  omega

/-- The sum of Bnnn never wraps in 16 bits (R191). -/
theorem nextPc_rel0_toNat (s : State) (nnn : Addr) :
    (nextPc s (.rel0 nnn)).toNat = nnn.toNat + (readV s 0x0).toNat := by
  have h1 := nnn.isLt
  have h2 := (readV s 0x0).isLt
  simp only [nextPc]
  rw [BitVec.toNat_add, zextAddr_toNat, zextByte_toNat]
  omega

/-! ### the shared ways a cycle completes -/

/-- A new pc and a new event keep the frame of an instruction that writes nothing. -/
theorem frameV_pcEvent (s : State) (pc : Word) (e : Option Event) (l : List Nibble) :
    FrameV s (setEvent (setPc s pc) e) l :=
  { mem := fun _ => rfl, config := rfl, run := rfl, v := fun _ _ => rfl, i := rfl, stack := rfl, rnd := rfl
    draws := rfl }

/-- Everything a skip can do (R140 to R143). -/
theorem completeSkip_spec (s : State) (b : Bool) :
    ∃ t, completeSkip s b = .next t ∧ t.pc = (if b then s.pc + 4 else s.pc + 2) ∧ t.event = none ∧
      FrameV s t [] := by
  refine ⟨_, rfl, ?_, rfl, frameV_pcEvent _ _ _ _⟩
  cases b <;> rfl

/-- Everything an ALU instruction with a result can do: the result, the flag where `x` is not VF, and the frame over
any list that holds `x`, and VF where the function writes it (R22, R109, R161). -/
theorem completeAlu_spec (s : State) (fn : AluFn) (x : Nibble) (b res : Byte) (l : List Nibble)
    (hres : aluRes fn (readV s x) b = some res) (hx : x ∈ l)
    (hl : aluFlag fn (readV s x) b = none ∨ 0xF ∈ l) :
    ∃ t, completeAlu s fn x b = .next t ∧ readV t x = res ∧
      (x ≠ 0xF → readV t 0xF = (aluFlag fn (readV s x) b).getD (readV s 0xF)) ∧
      t.pc = s.pc + 2 ∧ t.event = none ∧ FrameV s t l := by
  have R := fun r => readV_aluWrites s x r (alu fn (operandX s x) b) res hres
  obtain ⟨k1, k2, k3, k4⟩ := aluWrites_kept s x (alu fn (operandX s x) b)
  obtain ⟨-, c2, c3, c4, -⟩ := applyWrites_kept (aluWrites x (alu fn (operandX s x) b)) s
  refine ⟨_, rfl, by simpa using R x, fun h => ?_, rfl, rfl, ?_⟩
  · have := R 0xF
    rw [if_neg (Ne.symm h), if_pos rfl] at this
    exact this
  · refine
      { mem := fun a => ?_, config := c3, run := c4, v := fun r hr => ?_, i := k1, stack := k2, rnd := k3
        draws := k4 }
    · simp only [readByte_setEvent, readByte_setPc]
      simp only [readByte, c2, c3]
    · have := R r
      rw [if_neg (by rintro rfl; exact hr hx)] at this
      simp only [readV_setEvent, readV_setPc]
      rw [this]
      split
      · next h =>
        subst h
        rcases hl with hl | hl
        · have : (alu fn (operandX s x) b).flag = none := hl
          rw [this]
          rfl
        · exact absurd hl hr
      · rfl

/-- A failing check answers halt entry with the instruction's word (60_exceptions.md R222, R223). -/
theorem failOn_eq {s t : State} {k : HaltKind} {i : Instr} (h : failOn s k i = .next t) :
    t = haltEntry s k (some (encode i)) := by
  simp only [failOn, Host.Outcome.next.injEq] at h
  exact h.symm

/-! ### what an instruction can answer -/

/-- The meaning of every collaborator slot is the common one (46_collaborator_slots.md R200, R213). -/
theorem exec_slot {i : Instr} {k : SlotKind} (s : State) (h : slotKind i = some k) :
    exec i s = completeSlot s k (encode i) := by
  cases i <;> simp only [slotKind, Option.some.injEq, reduceCtorEq] at h <;> subst h <;> rfl

/-- An instruction completes, or is one of the two stack halts, or is a slot under the refusing policy. -/
theorem exec_cases (i : Instr) (s : State) :
    (∃ ws n ev, exec i s = complete s ws n ev) ∨
    (i = .ret ∧ s.stack = [] ∧ exec i s = failOn s .stackUnderflow i) ∨
    ((∃ nnn, i = .call nnn) ∧ 16 ≤ s.stack.length ∧ exec i s = failOn s .stackOverflow i) ∨
    (s.config.slotPolicy = .refuse ∧ (∃ k, slotKind i = some k) ∧ exec i s = .refused (.slotRefused (encode i))) := by
  by_cases hk : ∃ k, slotKind i = some k
  · obtain ⟨k, hk⟩ := hk
    rcases completeSlot_cases s k (encode i) with ⟨_, hp⟩ | ⟨h, hp⟩
    · exact .inl ⟨_, _, _, (exec_slot s hk).trans hp⟩
    · exact .inr (.inr (.inr ⟨h, ⟨k, hk⟩, (exec_slot s hk).trans hp⟩))
  · cases i
    case ret =>
      rcases pop_cases s with ⟨h, hp⟩ | ⟨w, rest, h, hp⟩
      · exact .inr (.inl ⟨rfl, h, by simp only [exec, execRet, hp]⟩)
      · exact .inl ⟨_, _, _, by simp only [exec, execRet, hp]; rfl⟩
    case call nnn =>
      rcases push_cases s (returnAddress s) with ⟨h, hp⟩ | ⟨h, hp⟩
      · exact .inr (.inr (.inl ⟨⟨_, rfl⟩, h, by simp only [exec, execCall, hp]⟩))
      · exact .inl ⟨_, _, _, by simp only [exec, execCall, hp]; rfl⟩
    all_goals first
      | exact .inl ⟨_, _, _, rfl⟩
      | exact absurd ⟨_, rfl⟩ hk

/-! ### what a step can answer (40_engine.md R115) -/

/-- A running core whose fetch answers `w` runs what `w` is classified as. -/
theorem step_fetched {s : State} {w : Word} (hr : s.run = .running) (hf : fetch s = .ok w) :
    step s =
      match classify s.config.fSlotSet w with
      | .unknown => .next (haltEntry s .unknownOpcode (some w))
      | .slotF _ => execSlotF w s
      | .instr i => exec i s := by
  cases hc : classify s.config.fSlotSet w <;> simp only [step, hr, hf, hc]

/-- Every next state of a step: a halted core absorbs it, the fetch fails, or the fetched word is unknown, a slot
without a row, or an instruction that ran. -/
theorem step_cases {s t : State} (h : step s = .next t) :
    (∃ r, s.run = .halted r ∧ t = haltedStep s) ∨
    (s.run = .running ∧
      ((0x0FFE < s.pc.toNat ∧ t = haltEntry s .outOfBounds none) ∨
       ∃ w, fetch s = .ok w ∧ s.pc.toNat ≤ 0x0FFE ∧
        ((classify s.config.fSlotSet w = .unknown ∧ t = haltEntry s .unknownOpcode (some w)) ∨
         (∃ kk, classify s.config.fSlotSet w = .slotF kk ∧ execSlotF w s = .next t) ∨
         (∃ i, classify s.config.fSlotSet w = .instr i ∧ exec i s = .next t)))) := by
  cases hr : s.run with
  | halted r =>
    simp only [step, hr, Host.Outcome.next.injEq] at h
    exact .inl ⟨r, rfl, h.symm⟩
  | running =>
    refine .inr ⟨rfl, ?_⟩
    by_cases hpc : 0x0FFE < s.pc.toNat
    · obtain ⟨f, hf⟩ := fetch_error hpc
      simp only [step, hr, hf, Host.Outcome.next.injEq] at h
      exact .inl ⟨hpc, h.symm⟩
    · obtain ⟨w, hf⟩ := (fetch_ok_iff s).2 (by omega)
      refine .inr ⟨w, hf, by omega, ?_⟩
      rw [step_fetched hr hf] at h
      cases hc : classify s.config.fSlotSet w with
      | unknown =>
        rw [hc] at h
        simp only [Host.Outcome.next.injEq] at h
        exact .inl ⟨rfl, h.symm⟩
      | slotF kk =>
        rw [hc] at h
        exact .inr (.inl ⟨kk, rfl, h⟩)
      | instr i =>
        rw [hc] at h
        exact .inr (.inr ⟨i, rfl, h⟩)

/-- One more step in front of a run. -/
theorem core_run_succ (M : Host.Core) (k : Nat) (s : M.State) :
    M.run (k + 1) s =
      match M.step s with
      | .next s' => M.run k s'
      | .fault r => .fault r
      | .refused r => .refused r := by
  cases h : M.step s <;> simp only [Host.Core.run, h]

end Sys2Proof.Machine
end

