-- ==== Sys2Proof/Tests/Slice0.lean ====
section
/-! SUPPORT. The model's own tests. Expected results are the vectors of 95_test_vectors.md (its ids in brackets), the
examples of the instruction rules, and the encodings of 30_encoding.md R73. -/

namespace Sys2Proof.Tests

open Sys2Proof.Machine

/-! ### Helpers -/

/-- A small state: reset, with a pc, a random byte, some registers, and one word at the pc. -/
def tiny (pc w : Word) (regs : List (Nibble × Byte)) : State :=
  placeWord (regs.foldl (fun s p => setV s p.1 p.2) { State.reset with pc := pc, rnd := 0xAB }) w

/-- The same with other parameters. -/
def tinyWith (set : FSlotSet) (policy : SlotPolicy) (pc w : Word) (regs : List (Nibble × Byte)) : State :=
  { tiny pc w regs with config := { Config.default with fSlotSet := set, slotPolicy := policy } }

/-- The next state of an outcome, if it is one. -/
def nextOf : Result → Option State
  | .next t => some t
  | .fault _ => none
  | .refused _ => none

/-- What one step makes of a part of the state. -/
def stepTo {α : Type} (f : State → α) (s : State) : Option α := (nextOf (step s)).map f

/-- The refusal of an outcome, if it is one. -/
def refusalOf : Result → Option Refusal
  | .next _ => none
  | .fault _ => none
  | .refused r => some r

/-- The pc and the event. -/
def pcEvent (s : State) : Word × Option Event := (s.pc, s.event)

/-- The pc and the stack. -/
def pcStack (s : State) : Word × List Word := (s.pc, s.stack)

/-- Two registers. -/
def regs2 (a b : Nibble) (s : State) : Byte × Byte := (readV s a, readV s b)

/-- A halt record as the vectors write it. -/
def haltedBy (k : HaltKind) (pc : Word) (op : Option Word) : RunState := .halted { kind := k, haltPc := pc, op := op }

/-! ### WellFormed: an ill-formed term for each check, which the check refuses -/

theorem test_wf_named_set_lacks_fx33 : Instr.wellFormed .named (.ldBVx 0x4) = false := by decide
theorem test_wf_standard_set_has_fx33 : Instr.wellFormed .standard (.ldBVx 0x4) = true := by decide
theorem test_kk_refused : kkFits 0x100 = false ∧ kkFits 0xFF = true := by decide
theorem test_nnn_refused : nnnFits 0x1000 = false ∧ nnnFits 0xFFF = true := by decide
theorem test_n_refused : nFits 0x10 = false ∧ nFits 0xF = true := by decide

/-! ### Decoding: words written out from R73 and 95_test_vectors.md, every constructor -/

theorem test_decode_flow :
    decodeWord 0x00E0 = .ok .cls ∧ decodeWord 0x00EE = .ok .ret ∧ decodeWord 0x1204 = .ok (.jp 0x204) ∧
    decodeWord 0x2210 = .ok (.call 0x210) ∧ decodeWord 0xB206 = .ok (.jpV0 0x206) := by decide

theorem test_decode_skips :
    decodeWord 0x3305 = .ok (.seImm 0x3 0x05) ∧ decodeWord 0x4306 = .ok (.sneImm 0x3 0x06) ∧
    decodeWord 0x5120 = .ok (.seReg 0x1 0x2) ∧ decodeWord 0x9120 = .ok (.sneReg 0x1 0x2) := by decide

theorem test_decode_immediates :
    decodeWord 0x6A03 = .ok (.ldImm 0xA 0x03) ∧ decodeWord 0x7102 = .ok (.addImm 0x1 0x02) ∧
    decodeWord 0xA300 = .ok (.ldI 0x300) ∧ decodeWord 0xC30F = .ok (.rnd 0x3 0x0F) := by decide

theorem test_decode_alu :
    decodeWord 0x8270 = .ok (.ldReg 0x2 0x7) ∧ decodeWord 0x8121 = .ok (.orReg 0x1 0x2) ∧
    decodeWord 0x8122 = .ok (.andReg 0x1 0x2) ∧ decodeWord 0x8123 = .ok (.xorReg 0x1 0x2) ∧
    decodeWord 0x8014 = .ok (.addReg 0x0 0x1) ∧ decodeWord 0x8AB5 = .ok (.subReg 0xA 0xB) ∧
    decodeWord 0x8356 = .ok (.shrReg 0x3 0x5) ∧ decodeWord 0x8BA7 = .ok (.subnReg 0xB 0xA) ∧
    decodeWord 0x8ABE = .ok (.shlReg 0xA 0xB) := by decide

theorem test_decode_slots :
    decodeWord 0xD125 = .ok (.drw 0x1 0x2 0x5) ∧ decodeWord 0xE39E = .ok (.skp 0x3) ∧
    decodeWord 0xE3A1 = .ok (.sknp 0x3) ∧ decodeWord 0xF507 = .ok (.ldVxDt 0x5) ∧
    decodeWord 0xF20A = .ok (.ldVxK 0x2) ∧ decodeWord 0xF115 = .ok (.ldDtVx 0x1) ∧
    decodeWord 0xF118 = .ok (.ldStVx 0x1) ∧ decodeWord 0xF21E = .ok (.addIVx 0x2) ∧
    decodeWord 0xF329 = .ok (.ldFVx 0x3) ∧ decodeWord 0xF433 = .ok (.ldBVx 0x4) ∧
    decodeWord 0xF555 = .ok (.ldMemVx 0x5) ∧ decodeWord 0xF565 = .ok (.ldVxMem 0x5) := by decide

theorem test_decode_rejects :
    decodeWord 0x0001 = .error .class0 ∧ decodeWord 0x01E0 = .error .class0 ∧ decodeWord 0x5121 = .error .class5 ∧
    decodeWord 0x8128 = .error .class8 ∧ decodeWord 0x812F = .error .class8 ∧ decodeWord 0x912F = .error .class9 ∧
    decodeWord 0xE39F = .error .classE ∧ decodeWord 0xF0FF = .error .classF ∧
    decode [0x12] = .error .truncated := by decide

/-- The table numbers the word with bit 15 first (R9); memory holds it high byte first (R52). -/
theorem test_table_word : decodeTableWord 16 0xD125 = some (.drw 0x1 0x2 0x5) := by decide

/-! ### One step -/

theorem test_cls : stepTo pcEvent (tiny 0x200 0x00E0 []) = some (0x202, some .displayClear) := by decide  -- [C1]

theorem test_call : stepTo pcStack (tiny 0x204 0x2210 []) = some (0x210, [0x0206]) := by decide  -- [C2]

theorem test_ret : stepTo pcStack { tiny 0x212 0x00EE [] with stack := [0x0206] } = some (0x206, []) := by decide  -- [C3]

theorem test_ret_underflow :  -- [C4]
    stepTo State.run (tiny 0x300 0x00EE []) = some (haltedBy .stackUnderflow 0x300 (some 0x00EE)) := by decide

theorem test_call_overflow :  -- [C5]
    stepTo State.run { tiny 0x300 0x2400 [] with stack := List.replicate 16 0x0202 } =
      some (haltedBy .stackOverflow 0x300 (some 0x2400)) := by decide

theorem test_call_at_top : stepTo pcStack (tiny 0x0FFE 0x2300 []) = some (0x300, [0x1000]) := by decide  -- [C8]

theorem test_jp_odd : stepTo State.pc (tiny 0x208 0x1201 []) = some 0x0201 := by decide  -- [C7]

theorem test_unknown : stepTo State.run (tiny 0x200 0x0001 []) =  -- [S6]
    some (haltedBy .unknownOpcode 0x200 (some 0x0001)) := by decide

theorem test_se_imm : stepTo State.pc (tiny 0x206 0x3305 [(0x3, 0x05)]) = some 0x20A := by decide  -- [K1]

theorem test_sne_imm : stepTo State.pc (tiny 0x206 0x4305 [(0x3, 0x05)]) = some 0x208 := by decide  -- [K4]

theorem test_se_reg :  -- [K6]
    stepTo State.pc (tiny 0x206 0x5120 [(0x1, 0x7F), (0x2, 0x80)]) = some 0x208 := by decide

theorem test_sne_reg_same : stepTo State.pc (tiny 0x206 0x9440 [(0x4, 0x33)]) = some 0x208 := by decide  -- [K9]

theorem test_ld_imm_vf : stepTo (regs2 0xF 0x0) (tiny 0x200 0x6FFF []) = some (0xFF, 0x00) := by decide  -- [I2]

theorem test_add_imm_no_flag :  -- [I3]
    stepTo (regs2 0x1 0xF) (tiny 0x200 0x7102 [(0x1, 0xFF)]) = some (0x01, 0x00) := by decide

theorem test_ld_reg : stepTo (regs2 0x2 0x7) (tiny 0x200 0x8270 [(0x7, 0x3C)]) = some (0x3C, 0x3C) := by decide  -- [A1]

theorem test_or_keeps_vf :  -- [A2]
    stepTo (regs2 0x1 0xF) (tiny 0x200 0x8121 [(0x1, 0x0F), (0x2, 0xF0), (0xF, 0x55)]) = some (0xFF, 0x55) := by decide

theorem test_and : stepTo (regs2 0x1 0xF) (tiny 0x200 0x8122 [(0x1, 0x3C), (0x2, 0x0F)]) = some (0x0C, 0x00) := by  -- [A3]
  decide

theorem test_xor_same : stepTo (regs2 0x1 0xF) (tiny 0x200 0x8113 [(0x1, 0xA5)]) = some (0x00, 0x00) := by decide  -- [A5]

theorem test_add_old_vf :  -- [A11]
    stepTo (regs2 0x0 0xF) (tiny 0x200 0x80F4 [(0x0, 0xF0), (0xF, 0x10)]) = some (0x00, 0x01) := by decide

theorem test_add_result_wins :  -- [A12]
    stepTo (regs2 0xF 0x1) (tiny 0x200 0x8F14 [(0xF, 0xFF), (0x1, 0x01)]) = some (0x00, 0x01) := by decide

theorem test_sub_borrow :  -- [A14]
    stepTo (regs2 0x1 0xF) (tiny 0x200 0x8125 [(0x1, 0x03), (0x2, 0x05)]) = some (0xFE, 0x00) := by decide

theorem test_sub_equal :  -- [A15]
    stepTo (regs2 0x1 0xF) (tiny 0x200 0x8125 [(0x1, 0x07), (0x2, 0x07)]) = some (0x00, 0x01) := by decide

theorem test_shr_ignores_y :  -- [A18]
    stepTo (regs2 0x3 0xF) (tiny 0x200 0x8356 [(0x3, 0x81), (0x5, 0xFF)]) = some (0x40, 0x01) := by decide

theorem test_shr_result_wins : stepTo (regs2 0xF 0x0) (tiny 0x200 0x8F06 [(0xF, 0x05)]) = some (0x02, 0x00) := by  -- [A20]
  decide

theorem test_subn :  -- [A21]
    stepTo (regs2 0x1 0xF) (tiny 0x200 0x8127 [(0x1, 0x03), (0x2, 0x05)]) = some (0x02, 0x01) := by decide

theorem test_subn_result_wins :  -- [A24]
    stepTo (regs2 0xF 0x1) (tiny 0x200 0x8F17 [(0xF, 0x03), (0x1, 0x01)]) = some (0xFE, 0x01) := by decide

theorem test_shl : stepTo (regs2 0x4 0xF) (tiny 0x200 0x840E [(0x4, 0x81)]) = some (0x02, 0x01) := by decide  -- [A25]

theorem test_ld_i : stepTo State.i (tiny 0x200 0xAFFF []) = some 0x0FFF := by decide  -- [J2]

theorem test_jp_v0_unmasked : stepTo State.pc (tiny 0x200 0xBFFF [(0x0, 0xFF)]) = some 0x10FE := by decide  -- [J5]

theorem test_rnd : stepTo (regs2 0x3 0xF) (tiny 0x200 0xC30F []) = some (0x0B, 0x00) := by decide  -- [J7], rnd = 0xAB

theorem test_drw : stepTo pcEvent (tiny 0x300 0xD125 [(0x1, 0x08), (0x2, 0x10)]) =  -- [L1]
    some (0x302, some (.slot {
      kind := .drw, opcode := 0xD125, pc := 0x300, x := 0x1, y := 0x2, n := 0x5, kk := 0x25, vx := 0x08,
      vy := 0x10, i := 0x000 })) := by decide

theorem test_skp_never_skips : stepTo State.pc (tiny 0x210 0xE39E []) = some 0x212 := by decide  -- [L2]

theorem test_sknp_never_skips : stepTo State.pc (tiny 0x210 0xE3A1 []) = some 0x212 := by decide  -- [L3]

theorem test_fx07_keeps_vx :  -- [L5]
    stepTo (regs2 0x5 0xF) (tiny 0x200 0xF507 [(0x5, 0x77)]) = some (0x77, 0x00) := by decide

theorem test_fx15_event : stepTo State.event (tiny 0x200 0xF115 [(0x1, 0x3C)]) =  -- R206's example
    some (some (.slot {
      kind := .f 0x15, opcode := 0xF115, pc := 0x200, x := 0x1, y := 0x1, n := 0x5, kk := 0x15, vx := 0x3C,
      vy := 0x3C, i := 0x000 })) := by decide

theorem test_fx1e_keeps_i :  -- [L6]
    stepTo State.i { tiny 0x200 0xF21E [(0x2, 0x04)] with i := 0x300 } = some 0x300 := by decide

theorem test_all_fx_slots_advance :  -- the examples of R205, R207, R209 to R212
    (nextOf (exec (.ldVxK 0x2) (tiny 0x200 0 []))).map State.pc = some 0x202 ∧
    (nextOf (exec (.ldStVx 0x1) (tiny 0x200 0 []))).map State.pc = some 0x202 ∧
    (nextOf (exec (.ldFVx 0x3) (tiny 0x200 0 []))).map State.pc = some 0x202 ∧
    (nextOf (exec (.ldBVx 0x4) (tiny 0x200 0 []))).map State.pc = some 0x202 ∧
    (nextOf (exec (.ldMemVx 0x5) (tiny 0x200 0 []))).map State.pc = some 0x202 ∧
    (nextOf (exec (.ldVxMem 0x5) (tiny 0x200 0 []))).map State.pc = some 0x202 := by decide

theorem test_slot_set_named :  -- [L8]
    stepTo State.run (tinyWith .named .emitAndAdvance 0x210 0xF033 []) =
      some (haltedBy .unknownOpcode 0x210 (some 0xF033)) := by decide

theorem test_slot_set_all :  -- [L7]
    stepTo State.run (tiny 0x210 0xF0FF []) = some (haltedBy .unknownOpcode 0x210 (some 0xF0FF)) ∧
    stepTo State.pc (tinyWith .all .emitAndAdvance 0x210 0xF0FF []) = some 0x212 := by decide

theorem test_slot_refused :  -- [L9]
    refusalOf (step (tinyWith .standard .refuse 0x200 0xD125 [])) = some (.slotRefused 0xD125) := by decide

/-! ### Fetch, memory, reset, host -/

theorem test_fetch_at_top : stepTo State.pc (tiny 0x0FFE 0x602A []) = some 0x1000 := by decide  -- [F1]

theorem test_fetch_out_of_bounds :  -- [F3]
    stepTo State.run (tiny 0x0FFF 0 []) = some (haltedBy .outOfBounds 0x0FFF none) := by decide

theorem test_halted_step_keeps_the_record :  -- [H1]
    stepTo State.run { tiny 0x300 0 [] with run := haltedBy .stackUnderflow 0x300 (some 0x00EE) } =
      some (haltedBy .stackUnderflow 0x300 (some 0x00EE)) := by decide

theorem test_reset_memory :  -- [M1]
    (List.range 5).map (readByte State.reset) = [0xF0, 0x90, 0x90, 0x90, 0xF0] ∧
    (List.range 5).map (fun k => readByte State.reset (0x4B + k)) = [0xF0, 0x80, 0xF0, 0x80, 0x80] ∧
    readByte State.reset 0x50 = 0x00 := by decide

theorem test_font_as_code :  -- [M4]
    stepTo State.run { State.reset with pc := 0x000 } = some (haltedBy .unknownOpcode 0x000 (some 0xF090)) := by decide

theorem test_core_status :  -- [S6] as a register value, by the layout of R34
    coreStatus { State.reset with run := haltedBy .unknownOpcode 0x200 (some 0x0001) } = 0x0001020019 := by decide

/-- A byte written back to what the address reads as unlisted leaves no cell. -/
theorem test_memory_canonical :
    Memory.write Config.default [(0x300, 0xAA)] 0x300 0x00 = [] ∧
    Memory.write Config.default [(0x300, 0xAA)] 0x200 0x12 = [(0x200, 0x12), (0x300, 0xAA)] := by decide

theorem test_with_fetch_word : stepTo State.i (State.reset.withFetchWord 16 0xA300) = some 0x300 := by decide  -- [J1]

theorem test_assembler :  -- the assembly column of P1 and P7
    assemble ['L', 'D', ' ', 'V', '0', ',', ' ', '0', 'x', '0', '5'] = some 0x6005 ∧
    assemble ['S', 'E', ' ', 'V', '1', ',', ' ', 'V', '0'] = some 0x5100 ∧
    assemble ['D', 'R', 'W', ' ', 'V', '1', ',', ' ', 'V', '2', ',', ' ', '5'] = some 0xD125 ∧
    assemble ['R', 'E', 'T'] = some 0x00EE := by decide

theorem test_assembler_digits :  -- R81's ranges: every digit's value, and a register is upper case (notes/assumptions 19)
    assemble ['L', 'D', ' ', 'I', ',', ' ', '0', 'x', 'a', 'B', '9'] = some 0xAAB9 ∧
    assemble ['S', 'K', 'P', ' ', 'V', 'F'] = some 0xEF9E ∧ assemble ['S', 'K', 'P', ' ', 'V', 'f'] = none ∧
    assemble ['J', 'P', ' ', '1', 'A'] = none := by decide

theorem test_assembler_refuses : assemble ['L', 'D', ' ', 'V', '0', ',', ' ', '2', '5', '6'] = none := by decide  -- R82

theorem test_load_refused_after_step :
    (match (Session.mk .stepped State.reset).move (.loadProgram [0x12]) with
      | .next _ => none
      | .fault _ => none
      | .refused r => some r) = some Refusal.loadOutsideWindow := by decide

/-! ### Witnesses: for each statement with hypotheses, concrete states and operands that meet all of them, one for each
clause, at the edges of the ranges -/

/-- `tiny` with a stack of `n` entries. -/
def deep (n : Nat) (pc w : Word) : State := { tiny pc w [] with stack := List.replicate n 0x0202 }

/-- A reset machine with every class-F word a slot, one of them at the pc. -/
def wide (w : Word) : State :=
  placeWord { State.resetWith { Config.default with fSlotSet := .all } with rnd := 0xAB } w

/-- A reset machine that refuses slots. -/
def refusing (w : Word) : State :=
  placeWord { State.resetWith { Config.default with slotPolicy := .refuse } with rnd := 0xAB } w

/-- A state halted by a record. -/
def stopped (k : HaltKind) (pc : Word) (op : Option Word) : State := { tiny pc 0 [] with run := haltedBy k pc op }

theorem witness_EncodeRebuildsDecodedWord :
    decodeWord 0xFF65 = .ok (.ldVxMem 0xF) ∧ decodeWord 0x00EE = .ok .ret := by decide

theorem witness_DecodeAcceptsExactlyTheOpcodeMap :
    (∃ i, decodeWord 0x8FFE = .ok i) ∧ (∃ r ∈ opcodeRows, r.matchesWord 0x8FFE = true) ∧
    ∀ r ∈ opcodeRows, r.matchesWord 0x8FFF = false := by
  refine ⟨⟨.shlReg 0xF 0xF, by decide⟩, ⟨Instr.row (.shlReg 0 0), by decide⟩, by decide⟩

theorem witness_OpcodeRowsNeverOverlap :
    Instr.row .cls ∈ opcodeRows ∧ (Instr.row .cls).matchesWord 0x00E0 = true ∧
    Instr.row (.ldVxMem 0) ∈ opcodeRows ∧ (Instr.row (.ldVxMem 0)).matchesWord 0xFF65 = true := by decide

theorem witness_ClassZeroHasTwoInstructions :
    classOf 0x00E0 = 0x0 ∧ classOf 0x00EE = 0x0 ∧ classOf 0x0000 = 0x0 ∧ classOf 0x0FFF = 0x0 := by decide

theorem witness_SubOperationsSelectOnN :
    (classOf 0x5FF0 = 0x5 ∧ nOf 0x5FF0 = 0x0) ∧ (classOf 0x5FFF = 0x5 ∧ nOf 0x5FFF ≠ 0x0) ∧
    (classOf 0x9000 = 0x9 ∧ nOf 0x9000 = 0x0) ∧ (classOf 0x9001 = 0x9 ∧ nOf 0x9001 ≠ 0x0) ∧
    ([0x8FF0, 0x8FF1, 0x8FF2, 0x8FF3, 0x8FF4, 0x8FF5, 0x8FF6, 0x8FF7, 0x8FFE].map (fun w => (classOf w, nOf w)) =
      [(0x8, 0x0), (0x8, 0x1), (0x8, 0x2), (0x8, 0x3), (0x8, 0x4), (0x8, 0x5), (0x8, 0x6), (0x8, 0x7), (0x8, 0xE)]) ∧
    (∀ w ∈ [(0x8008 : Word), 0x800D, 0x800F],
      classOf w = 0x8 ∧ nOf w ∈ ([0x8, 0x9, 0xA, 0xB, 0xC, 0xD, 0xF] : List Nibble)) ∧
    ([0x1000, 0x2FFF, 0x3000, 0x4FFF, 0x6000, 0x7FFF, 0xA000, 0xBFFF, 0xC000, 0xDFFF].map classOf =
      [0x1, 0x2, 0x3, 0x4, 0x6, 0x7, 0xA, 0xB, 0xC, 0xD]) := by
  refine ⟨by decide, by decide, by decide, by decide, by decide, ?_, by decide⟩
  simp only [List.forall_mem_cons, List.not_mem_nil, false_implies, implies_true, and_true]
  decide

theorem witness_ClassESelectsOnKk :
    classOf 0xE09E = 0xE ∧ classOf 0xEFA1 = 0xE ∧ classOf 0xE0A2 = 0xE := by decide

theorem witness_ClassFFollowsTheSlotSet :
    classOf 0xF0FF = 0xF ∧ FSlotSet.standard.contains (kkOf 0xF0FF) = false ∧
    classOf 0xF065 = 0xF ∧ FSlotSet.standard.contains (kkOf 0xF065) = true ∧
    FSlotSet.named.contains (kkOf 0xF01E) = false ∧ FSlotSet.all.contains (kkOf 0xF0FF) = true := by decide

theorem witness_AssemblerHasOneWordPerForm :
    assembleLine { mnemonic := .ld, operands := [.v 0xF, .num 0xFF] } = some (.ldImm 0xF 0xFF) ∧
    assembleLine { mnemonic := .shr, operands := [.v 0x3] } = some (.shrReg 0x3 0x0) ∧
    assembleLine { mnemonic := .shl, operands := [.v 0x3] } = some (.shlReg 0x3 0x0) ∧
    (0xFF < 0x100 ∧ Mnemonic.ld ≠ .jp) ∧ 0xFFF < 0x1000 ∧ 0xF < 0x10 := by decide

theorem witness_StepRunsTheDecodedInstruction :
    (tiny 0x0FFE 0x602A []).run = .running ∧ (tiny 0x0FFE 0x602A []).pc.toNat ≤ 0x0FFE ∧
    decode [readByte (tiny 0x0FFE 0x602A []) (tiny 0x0FFE 0x602A []).pc.toNat,
      readByte (tiny 0x0FFE 0x602A []) ((tiny 0x0FFE 0x602A []).pc.toNat + 1)] = .ok (.ldImm 0x0 0x2A, []) ∧
    Instr.wellFormed (tiny 0x0FFE 0x602A []).config.fSlotSet (.ldImm 0x0 0x2A) = true := by decide

theorem witness_FetchIsBigEndianAndBounded :
    (tiny 0x0FFE 0x602A []).pc.toNat ≤ 0x0FFE ∧ (tiny 0x0201 0x602A []).pc.toNat ≤ 0x0FFE ∧
    (tiny 0x0FFF 0 []).run = .running ∧ 0x0FFE < (tiny 0x0FFF 0 []).pc.toNat ∧
    (tiny 0x10FE 0 []).run = .running ∧ 0x0FFE < (tiny 0x10FE 0 []).pc.toNat := by decide

theorem witness_UnknownWordsHalt :
    (tiny 0x200 0x0001 []).run = .running ∧ fetch (tiny 0x200 0x0001 []) = .ok 0x0001 ∧
    classify (tiny 0x200 0x0001 []).config.fSlotSet 0x0001 = .unknown := ⟨rfl, rfl, rfl⟩

theorem witness_HaltCausesAndRecords :
    ((tiny 0x0FFF 0 []).run = .running ∧ ∃ t, step (tiny 0x0FFF 0 []) = .next t ∧
      t.run = .halted { kind := .outOfBounds, haltPc := 0x0FFF, op := none }) ∧
    ((tiny 0x200 0x5121 []).run = .running ∧ ∃ t, step (tiny 0x200 0x5121 []) = .next t ∧
      t.run = .halted { kind := .unknownOpcode, haltPc := 0x200, op := some 0x5121 }) ∧
    ((deep 16 0x300 0x2400).run = .running ∧ ∃ t, step (deep 16 0x300 0x2400) = .next t ∧
      t.run = .halted { kind := .stackOverflow, haltPc := 0x300, op := some 0x2400 }) ∧
    ((deep 0 0x300 0x00EE).run = .running ∧ ∃ t, step (deep 0 0x300 0x00EE) = .next t ∧
      t.run = .halted { kind := .stackUnderflow, haltPc := 0x300, op := some 0x00EE }) :=
  ⟨⟨rfl, _, rfl, rfl⟩, ⟨rfl, _, rfl, rfl⟩, ⟨rfl, _, rfl, rfl⟩, rfl, _, rfl, rfl⟩

theorem witness_FailingCycleChangesOnlyTheRunState :
    (deep 16 0x0FFE 0x2000).run = .running ∧ ∃ t, step (deep 16 0x0FFE 0x2000) = .next t ∧
      t.run = .halted { kind := .stackOverflow, haltPc := 0x0FFE, op := some 0x2000 } := ⟨rfl, _, rfl, rfl⟩

theorem witness_HaltedCoreAbsorbsSteps :
    (stopped .outOfBounds 0x10FE none).run = .halted { kind := .outOfBounds, haltPc := 0x10FE, op := none } := rfl

theorem inv_tiny : Inv (tiny 0x0FFE 0x602A []) where
  mem := by decide
  depth := by decide
  entries := by
    rw [show (tiny 0x0FFE 0x602A []).stack = [] by decide]
    simp
  pc := by decide
  i := by decide
  run := by
    rw [show (tiny 0x0FFE 0x602A []).run = .running by decide]
    trivial

theorem inv_deep : Inv (deep 15 0x0FFE 0x2FFF) where
  mem := by decide
  depth := by decide
  entries := by
    rw [show (deep 15 0x0FFE 0x2FFF).stack = List.replicate 15 0x0202 by decide]
    intro w hw
    rw [List.eq_of_mem_replicate hw]
    decide
  pc := by decide
  i := by decide
  run := by
    rw [show (deep 15 0x0FFE 0x2FFF).run = .running by decide]
    trivial

theorem inv_stopped : Inv (stopped .unknownOpcode 0x10FE (some 0x0001)) where
  mem := by decide
  depth := by decide
  entries := by
    rw [show (stopped .unknownOpcode 0x10FE (some 0x0001)).stack = [] by decide]
    simp
  pc := by decide
  i := by decide
  run := by
    rw [show (stopped .unknownOpcode 0x10FE (some 0x0001)).run = haltedBy .unknownOpcode 0x10FE (some 0x0001) by decide,
      show (stopped .unknownOpcode 0x10FE (some 0x0001)).pc = 0x10FE by decide]
    exact ⟨rfl, by decide⟩

theorem witness_StepKeepsInvariant :
    (Inv (tiny 0x0FFE 0x602A []) ∧ ∃ t, step (tiny 0x0FFE 0x602A []) = .next t) ∧
    (Inv (deep 15 0x0FFE 0x2FFF) ∧ ∃ t, step (deep 15 0x0FFE 0x2FFF) = .next t) ∧
    (Inv (stopped .unknownOpcode 0x10FE (some 0x0001)) ∧
      ∃ t, step (stopped .unknownOpcode 0x10FE (some 0x0001)) = .next t) :=
  ⟨⟨inv_tiny, _, rfl⟩, ⟨inv_deep, _, rfl⟩, inv_stopped, _, rfl⟩

/-- A session in which a program `BFFF` is loaded and run for one step, after which the fetch fails; and the same after a
reset in the middle of it and a load of another program. -/
theorem reachable_loaded (image : List Byte) :
    Session.Reachable { phase := .loaded, core := loadProgram image State.reset } :=
  .move _ _ (.loadProgram image) (.boot Config.default) rfl

theorem witness_ReachableStatesStayInBounds :
    (∃ t, Reachable t ∧ t.pc = 0x0FFF ∧ t.run = .running) ∧ ∃ t, Reachable t ∧ t.pc = 0x0201 :=
  ⟨⟨_, ⟨_, .move _ _ (.step 0xAB) (reachable_loaded [0xBF, 0xFF]) rfl, rfl⟩, by decide, by decide⟩,
    _, ⟨_, .move _ _ (.step 0xAB) (.move _ _ (.loadProgram [0x12, 0x01])
      (.move _ _ .reset (.move _ _ (.step 0xAB) (reachable_loaded [0xBF, 0xFF]) rfl) rfl) rfl) rfl, rfl⟩, by decide⟩

theorem witness_ReservedRegionKeepsResetContents :
    (∃ t, step (tiny 0x200 0x00E0 []) = .next t) ∧
    Reachable (loadProgram [0x12] State.reset) ∧ Reachable (hostReset (loadProgram [0x12] State.reset)) ∧
    0x000 < 0x200 ∧ 0x1FF < 0x200 :=
  ⟨⟨_, rfl⟩, ⟨_, reachable_loaded [0x12], rfl⟩, ⟨_, .move _ _ .reset (reachable_loaded [0x12]) rfl, rfl⟩, by decide,
    by decide⟩

theorem witness_CoreStatusLayout :
    State.reset.run = .running ∧
    (stopped .outOfBounds 0x10FE none).run = .halted { kind := .outOfBounds, haltPc := 0x10FE, op := none } ∧
    (stopped .unknownOpcode 0x0FFE (some 0xFFFF)).run =
      .halted { kind := .unknownOpcode, haltPc := 0x0FFE, op := some 0xFFFF } := by decide

theorem witness_ResetSetsEveryPieceOfState :
    0 < 80 ∧ 79 < 80 ∧ 80 ≤ 80 ∧ 80 ≤ 0xFFF ∧
    (stopped .stackUnderflow 0x300 (some 0x00EE)).run ≠ .running := by decide

theorem witness_LoadedImageReadsBack :
    Memory.wf State.reset.config State.reset.mem = true ∧
    (0 < (List.replicate 3585 (0x12 : Byte)).length ∧ 0 < 3584) ∧
    (3583 < (List.replicate 3585 (0x12 : Byte)).length ∧ 3583 < 3584) ∧
    (0x1FF < 0x200 ∨ 0x200 + ([0x12] : List Byte).length ≤ 0x1FF ∨ 0x1000 ≤ 0x1FF) ∧
    (0x201 < 0x200 ∨ 0x200 + ([0x12] : List Byte).length ≤ 0x201 ∨ 0x1000 ≤ 0x201) ∧
    (0x1000 < 0x200 ∨ 0x200 + (List.replicate 3585 (0x12 : Byte)).length ≤ 0x1000 ∨ 0x1000 ≤ 0x1000) := by
  simp only [List.length_replicate, List.length_singleton]
  exact ⟨rfl, by decide⟩

theorem witness_MemoryPortsReadWhatWasWritten :
    Memory.wf (tiny 0x200 0x1204 []).config (tiny 0x200 0x1204 []).mem = true ∧
    (0x0FFF : Word).toNat ≤ 0x0FFF ∧ (0x0000 : Word) ≠ 0x0FFF ∧ 0x0FFF < (0x1000 : Word).toNat ∧
    0x0FFF < (0xFFFF : Word).toNat := by decide

theorem witness_HostMovesKeepToTheirWindow :
    (Session.boot Config.default).phase = .afterReset ∧
    (Session.mk .loaded State.reset).phase ≠ .afterReset ∧ (Session.mk .stepped State.reset).phase ≠ .afterReset ∧
    (∃ h', (Session.boot Config.default).move (.step 0xAB) = .next h') ∧
    (Session.mk .loaded (refusing 0xD125)).move (.step 0xAB) = .refused (.slotRefused 0xD125) := by
  refine ⟨rfl, by decide, by decide, ⟨_, rfl⟩, rfl⟩

theorem witness_OnlyRndReadsTheRandomByte :
    (∀ x kk, Instr.addReg 0xF 0x1 ≠ .rnd x kk) ∧ ∃ t, exec (.addReg 0xF 0x1) (tiny 0x200 0 []) = .next t :=
  ⟨by simp, _, rfl⟩

theorem witness_RetPopsOrUnderflows :
    (deep 1 0x300 0x00EE).stack = [] ++ [0x0202] ∧
    (deep 16 0x300 0x00EE).stack = List.replicate 15 0x0202 ++ [0x0202] ∧ (deep 0 0x300 0x00EE).stack = [] := by decide

theorem witness_CallPushesOrOverflows :
    depth (deep 0 0x300 0) < 16 ∧ depth (deep 15 0x300 0) < 16 ∧ depth (deep 16 0x300 0) = 16 := by decide

theorem witness_ReturnUndoesCall : depth (deep 15 0x0FFF 0) < 16 := by decide

theorem witness_SixteenNestedCallsThenOverflow :
    (deep 0 0x204 0x2208).stack = [] ∧ (deep 0 0x204 0x2208).run = .running ∧
    (List.replicate 16 (0x208 : Addr)).length = 16 := by decide

theorem witness_SeImmSkipsOnEqual :
    readV (tiny 0x206 0 [(0xF, 0xFF)]) 0xF = 0xFF ∧ readV (tiny 0x206 0 [(0xF, 0xFF)]) 0xF ≠ 0x00 := by decide

theorem witness_SneImmSkipsOnUnequal :
    readV (tiny 0x206 0 [(0x0, 0x80)]) 0x0 ≠ 0x00 ∧ readV (tiny 0x206 0 [(0x0, 0x80)]) 0x0 = 0x80 := by decide

theorem witness_SeRegSkipsOnEqual :
    readV (tiny 0x206 0 [(0x1, 0x7F)]) 0x2 = readV (tiny 0x206 0 [(0x1, 0x7F)]) 0xF ∧
    readV (tiny 0x206 0 [(0x1, 0x7F)]) 0x1 ≠ readV (tiny 0x206 0 [(0x1, 0x7F)]) 0x2 ∧
    (0xF : Nibble) = 0xF := by decide

theorem witness_SneRegSkipsOnUnequal :
    readV (tiny 0x206 0 [(0x1, 0x7F)]) 0x1 ≠ readV (tiny 0x206 0 [(0x1, 0x7F)]) 0x2 ∧
    readV (tiny 0x206 0 [(0x1, 0x7F)]) 0x2 = readV (tiny 0x206 0 [(0x1, 0x7F)]) 0xF ∧
    (0x4 : Nibble) = 0x4 := by decide

theorem witness_AddRegSumAndCarry :
    (0x0 : Nibble) ≠ 0xF ∧ (0xE : Nibble) ≠ 0xF ∧
    255 < (readV (tiny 0x200 0 [(0x0, 0xFF), (0x1, 0x01)]) 0x0).toNat +
      (readV (tiny 0x200 0 [(0x0, 0xFF), (0x1, 0x01)]) 0x1).toNat := by decide

theorem witness_SubRegDifferenceAndNotBorrow :
    (0xE : Nibble) ≠ 0xF ∧ (readV (tiny 0x200 0 [(0xE, 0x07), (0x1, 0x07)]) 0x1).toNat ≤
      (readV (tiny 0x200 0 [(0xE, 0x07), (0x1, 0x07)]) 0xE).toNat := by decide

theorem witness_ShrRegHalvesVx : (0xE : Nibble) ≠ 0xF ∧ (readV (tiny 0x200 0 [(0xE, 0x81)]) 0xE).toNat % 2 = 1 := by
  decide

theorem witness_SubnRegDifferenceAndNotBorrow :
    (0x0 : Nibble) ≠ 0xF ∧ (readV (tiny 0x200 0 [(0x0, 0x07), (0x1, 0x07)]) 0x0).toNat ≤
      (readV (tiny 0x200 0 [(0x0, 0x07), (0x1, 0x07)]) 0x1).toNat := by decide

theorem witness_ShlRegDoublesVx : (0xE : Nibble) ≠ 0xF ∧ (readV (tiny 0x200 0 [(0xE, 0x80)]) 0xE).toNat / 128 = 1 := by
  decide

theorem witness_JpV0AddsUnmasked :
    (tiny 0x200 0 []).run = .running ∧ 0x0FFE < (0xFFF : Addr).toNat + (readV (tiny 0x200 0 []) 0x0).toNat ∧
    0x0FFE < (0xFFF : Addr).toNat + (readV (tiny 0x200 0 [(0x0, 0xFF)]) 0x0).toNat := by decide

theorem witness_RndMasksTheStepsByte : (0x00 : Byte) = 0x00 ∧ ∃ t, exec (.rnd 0xF 0x00) (tiny 0x200 0 []) = .next t :=
  ⟨rfl, _, rfl⟩

theorem witness_SlotsEmitAndAdvance :
    ([Instr.drw 0xF 0xF 0xF, .skp 0xF, .sknp 0x0, .ldVxDt 0x0, .ldVxK 0x0, .ldDtVx 0xF, .ldStVx 0x1, .addIVx 0x2,
      .ldFVx 0x3, .ldBVx 0x4, .ldMemVx 0xF, .ldVxMem 0xF].map slotKind =
      [some .drw, some .skp, some .sknp, some (.f 0x07), some (.f 0x0A), some (.f 0x15), some (.f 0x18),
        some (.f 0x1E), some (.f 0x29), some (.f 0x33), some (.f 0x55), some (.f 0x65)]) ∧
    State.reset.config.slotPolicy = .emitAndAdvance ∧
    (wide 0xF0FF).run = .running ∧ classify (wide 0xF0FF).config.fSlotSet 0xF0FF = .slotF 0xFF ∧
    (wide 0xF0FF).config.slotPolicy = .emitAndAdvance ∧ (∃ w, fetch (wide 0xF0FF) = .ok w ∧ w = 0xF0FF) := by
  exact ⟨by decide, rfl, rfl, rfl, rfl, _, rfl, rfl⟩

theorem witness_RefusePolicyRefusesSlots :
    slotKind (.drw 0x1 0x2 0x5) = some .drw ∧ (refusing 0xD125).config.slotPolicy = .refuse ∧
    (refusing 0xD125).run = .running ∧ fetch (refusing 0xD125) = .ok 0xD125 ∧
    classify (refusing 0xD125).config.fSlotSet 0xD125 = .instr (.drw 0x1 0x2 0x5) ∧
    (tinyWith .all .refuse 0x200 0xF0FF []).run = .running ∧
    fetch (tinyWith .all .refuse 0x200 0xF0FF []) = .ok 0xF0FF ∧
    (tinyWith .all .refuse 0x200 0xF0FF []).config.slotPolicy = .refuse ∧
    classify (tinyWith .all .refuse 0x200 0xF0FF []).config.fSlotSet 0xF0FF = .slotF 0xFF ∧
    (refusing 0xF0FF).run = .running ∧ fetch (refusing 0xF0FF) = .ok 0xF0FF ∧ classOf 0xF0FF = 0xF ∧
    (refusing 0xF0FF).config.fSlotSet.contains (kkOf 0xF0FF) = false :=
  ⟨rfl, rfl, rfl, rfl, rfl, rfl, rfl, rfl, rfl, rfl, rfl, rfl, rfl⟩

theorem witness_RowlessClassFSlotsEmit :
    (wide 0xF0FF).run = .running ∧ fetch (wide 0xF0FF) = .ok 0xF0FF ∧ classOf 0xF0FF = 0xF ∧
    (wide 0xF0FF).config.fSlotSet = .all ∧ (wide 0xF0FF).config.slotPolicy = .emitAndAdvance :=
  ⟨rfl, rfl, rfl, rfl, rfl⟩

theorem witness_OnlyClsAndSlotsEmitEvents :
    (∃ t, exec .cls (tiny 0x200 0 []) = .next t ∧ t.event = some .displayClear) ∧
    (∃ t, exec (.skp 0x3) (tiny 0x200 0 []) = .next t ∧ ∃ r, t.event = some (.slot r)) ∧
    ∃ t, exec .ret (deep 0 0x200 0) = .next t ∧ t.event = none :=
  ⟨⟨_, rfl, rfl⟩, ⟨_, rfl, _, rfl⟩, _, rfl, rfl⟩

theorem witness_InstructionsWriteOnlyWhatTheTableLists :
    (∃ t, exec (.addReg 0x1 0x2) (tiny 0x200 0 []) = .next t ∧ 0xE ∉ writesV (.addReg 0x1 0x2)) ∧
    (∃ t, exec (.ldI 0xFFF) (tiny 0x200 0 []) = .next t ∧ t.i ≠ (tiny 0x200 0 []).i) ∧
    (∃ t, exec (.call 0x400) (deep 15 0x200 0) = .next t ∧ t.stack ≠ (deep 15 0x200 0).stack) ∧
    (∃ t, exec .ret (deep 1 0x200 0) = .next t ∧ t.stack ≠ (deep 1 0x200 0).stack) ∧
    (∃ t, exec (.call 0x400) (deep 16 0x200 0) = .next t ∧ t.run ≠ (deep 16 0x200 0).run) ∧
    ∃ t, exec .ret (deep 0 0x200 0) = .next t ∧ t.run ≠ (deep 0 0x200 0).run :=
  ⟨⟨_, rfl, by decide⟩, ⟨_, rfl, by decide⟩, ⟨_, rfl, by decide⟩, ⟨_, rfl, by decide⟩, ⟨_, rfl, by decide⟩,
    _, rfl, by decide⟩

/-- SHR V3, V5 reads V3 alone: the other file differs in V5. -/
theorem witness_InstructionsReadOnlyWhatTheTableLists :
    (∀ r ∈ readsV (.shrReg 0x3 0x5),
      readV { tiny 0x200 0 [(0x3, 0x81)] with v := (tiny 0x200 0 [(0x3, 0x81), (0x5, 0xFF)]).v } r =
        readV (tiny 0x200 0 [(0x3, 0x81)]) r) ∧
    readV (tiny 0x200 0 [(0x3, 0x81), (0x5, 0xFF)]) 0x5 ≠ readV (tiny 0x200 0 [(0x3, 0x81)]) 0x5 ∧
    ∃ t, exec (.shrReg 0x3 0x5) (tiny 0x200 0 [(0x3, 0x81)]) = .next t := ⟨by decide, by decide, _, rfl⟩

end Sys2Proof.Tests
end

/-! ## The writes of a cycle (40_engine.md R109), and what an instruction that completes writes and reads -/

namespace Sys2Proof.Machine

/-! ### What is left of the writes once they have been applied -/

/-- The byte one write puts into register `r`, if it goes there (10_state.md R22). -/
def Write.byteFor (r : Nibble) : Write → Option Byte
  | .flag b => if r = 0xF then some b else none
  | .v x b => if r = x then some b else none
  | .i _ | .stack _ | .useRnd => none

/-- The byte that register `r` holds after the writes, none where no write goes there: the last one wins
(00_scope.md R11). -/
def lastByteFor (r : Nibble) : List Write → Option Byte
  | [] => none
  | w :: ws => (lastByteFor r ws).or (w.byteFor r)

theorem readV_applyWrite (s : State) (w : Write) (r : Nibble) :
    readV (applyWrite s w) r = (w.byteFor r).getD (readV s r) := by
  cases w with
  | flag b =>
    simp only [applyWrite, Write.byteFor, readV_setV]
    split <;> rfl
  | v x b =>
    simp only [applyWrite, Write.byteFor, readV_setV]
    split <;> rfl
  | i w => rfl
  | stack l => rfl
  | useRnd => rfl

theorem readV_applyWrites (ws : List Write) (r : Nibble) :
    ∀ s : State, readV (applyWrites s ws) r = (lastByteFor r ws).getD (readV s r) := by
  induction ws with
  | nil => exact fun _ => rfl
  | cons w ws ih =>
    intro s
    rw [applyWrites, ih, readV_applyWrite, lastByteFor]
    cases lastByteFor r ws <;> rfl

/-- A component of the state that each write either keeps or puts there by its own kind of write is, after all the
writes, as before or what one of them put there. -/
theorem applyWrites_component {α : Type} (get : State → α) (kind : α → Write)
    (h : ∀ s w, get (applyWrite s w) = get s ∨ w = kind (get (applyWrite s w))) (ws : List Write) :
    ∀ s : State, get (applyWrites s ws) = get s ∨ kind (get (applyWrites s ws)) ∈ ws := by
  induction ws with
  | nil => exact fun _ => .inl rfl
  | cons w ws ih =>
    intro s
    rw [applyWrites, List.mem_cons]
    rcases ih (applyWrite s w) with hrest | hrest
    · rw [hrest]
      exact (h s w).imp_right fun hw => .inl hw.symm
    · exact .inr (.inr hrest)

theorem applyWrites_i (s : State) (ws : List Write) :
    (applyWrites s ws).i = s.i ∨ Write.i (applyWrites s ws).i ∈ ws := by
  refine applyWrites_component State.i Write.i (fun s w => ?_) ws s
  cases w with
  | i w => exact .inr rfl
  | flag b | v x b | stack l | useRnd => exact .inl rfl

theorem applyWrites_stack (s : State) (ws : List Write) :
    (applyWrites s ws).stack = s.stack ∨ Write.stack (applyWrites s ws).stack ∈ ws := by
  refine applyWrites_component State.stack Write.stack (fun s w => ?_) ws s
  cases w with
  | stack l => exact .inr rfl
  | flag b | v x b | i w | useRnd => exact .inl rfl

/-- Outside the register file, the writes do the same whatever the register file holds. -/
theorem applyWrites_withV (ws : List Write) : ∀ (s : State) (v : Vector Byte 16),
    { applyWrites { s with v := v } ws with v := (applyWrites s ws).v } = applyWrites s ws := by
  induction ws with
  | nil => exact fun _ _ => rfl
  | cons w ws ih =>
    intro s v
    cases w with
    | flag b => exact ih (setV s 0xF b) (v.set 0xF b)
    | v x b => exact ih (setV s x b) (v.set x.toNat b x.lt_sixteen)
    | i w => exact ih (setI s w) v
    | stack l => exact ih (setStack s l) v
    | useRnd => exact ih (useRnd s) v

/-- An ALU instruction with a result writes `V[x]`, and VF where the function has a flag. -/
theorem lastByteFor_aluWrites (x r : Nibble) (o : AluOut) :
    lastByteFor r (aluWrites x o) =
      (if r = x then o.res else none).or (if r = 0xF then o.flag else none) := by
  obtain ⟨res, flag, eq⟩ := o
  cases res <;> cases flag <;> simp [aluWrites, lastByteFor, Write.byteFor]

theorem i_notMem_aluWrites (x : Nibble) (o : AluOut) (w : Word) : Write.i w ∉ aluWrites x o := by
  simp [aluWrites]

theorem stack_notMem_aluWrites (x : Nibble) (o : AluOut) (l : List Word) : Write.stack l ∉ aluWrites x o := by
  simp [aluWrites]

/-! ### How an instruction completes: the rows of 10_state.md R24, R27 and R33 -/

/-- The register file `v` holds what `s` holds in every register that the instruction reads (R24). -/
def AgreesOnReads (i : Instr) (s : State) (v : Vector Byte 16) : Prop :=
  ∀ r ∈ readsV i, readV { s with v := v } r = readV s r

/-- From `s` the instruction completes with these writes, this next-pc source and this event, and from every state that
differs from `s` only in registers it does not read; and they are those its rows allow: the registers of R24, I by Annn
(R25), the stack by one push or pop (R33), and the next pc of R27. -/
structure CompletesWith (i : Instr) (s : State) (ws : List Write) (n : NextPc) (ev : Option Event) : Prop where
  answers : ∀ v, AgreesOnReads i s v → exec i { s with v := v } = complete { s with v := v } ws n ev
  registers : ∀ r, (lastByteFor r ws).isSome ↔ r ∈ writesV i
  index : ∀ w, Write.i w ∈ ws → ∃ nnn, i = .ldI nnn ∧ w = zextAddr nnn
  stack : ∀ l, Write.stack l ∈ ws →
    (i = .ret ∧ ∃ w, s.stack = l ++ [w]) ∨
    ((∃ nnn, i = .call nnn) ∧ s.stack.length < 16 ∧ l = s.stack ++ [s.pc + 2])
  popped : ∀ w, n = .ret w → w ∈ s.stack
  rel0 : ∀ nnn, n = .rel0 nnn → 0x0 ∈ readsV i

/-- An instruction that writes nothing: its next-pc source pops nothing, and reads V0 only if the instruction does. -/
theorem completesWith_noWrites {i : Instr} {s : State} {n : NextPc} {ev : Option Event} (hw : writesV i = [])
    (hret : ∀ w, n ≠ .ret w) (hrel : ∀ nnn, n = .rel0 nnn → 0x0 ∈ readsV i)
    (h : ∀ v, AgreesOnReads i s v → exec i { s with v := v } = complete { s with v := v } [] n ev) :
    CompletesWith i s [] n ev where
  answers := h
  registers r := by simp [hw, lastByteFor]
  index := by simp
  stack := by simp
  popped w hn := absurd hn (hret w)
  rel0 := hrel

/-- An instruction that writes registers and advances by 2. -/
theorem completesWith_seq {i : Instr} {s : State} {ws : List Write}
    (hw : ∀ r, (lastByteFor r ws).isSome ↔ r ∈ writesV i) (hi : ∀ w, Write.i w ∉ ws) (hl : ∀ l, Write.stack l ∉ ws)
    (h : ∀ v, AgreesOnReads i s v → exec i { s with v := v } = complete { s with v := v } ws .seq none) :
    CompletesWith i s ws .seq none where
  answers := h
  registers := hw
  index w hm := absurd hm (hi w)
  stack l hm := absurd hm (hl l)
  popped := by simp
  rel0 := by simp

/-- A conditional skip (42_skips.md). -/
theorem completesWith_skip {i : Instr} {s : State} {taken : State → Bool} (hw : writesV i = [])
    (hx : ∀ u, exec i u = completeSkip u (taken u))
    (h : ∀ v, AgreesOnReads i s v → taken { s with v := v } = taken s) :
    CompletesWith i s [] (if taken s then .skip else .seq) none := by
  refine completesWith_noWrites hw (fun w => ?_) (fun nnn => ?_) (fun v hv => ?_)
  · cases taken s <;> simp
  · cases taken s <;> simp
  · rw [hx, h v hv, completeSkip]

/-- An ALU instruction (43_register_immediate.md, 44_alu_register.md). -/
theorem completesWith_alu {i : Instr} {s : State} {fn : AluFn} {x : Nibble} {b : State → Byte}
    (hx : ∀ u, exec i u = completeAlu u fn x (b u))
    (hw : ∀ r, r ∈ writesV i ↔ r = x ∨ (r = 0xF ∧ (aluFlag fn (operandX s x) (b s)).isSome))
    (hres : (aluRes fn (operandX s x) (b s)).isSome)
    (h : ∀ v, AgreesOnReads i s v →
      aluRes fn (operandX { s with v := v } x) (b { s with v := v }) = aluRes fn (operandX s x) (b s) ∧
      aluFlag fn (operandX { s with v := v } x) (b { s with v := v }) = aluFlag fn (operandX s x) (b s)) :
    CompletesWith i s (aluWrites x (alu fn (operandX s x) (b s))) .seq none := by
  refine completesWith_seq (fun r => ?_) (i_notMem_aluWrites _ _) (stack_notMem_aluWrites _ _) (fun v hv => ?_)
  · rw [hw, lastByteFor_aluWrites, Option.isSome_or, Bool.or_eq_true]
    refine or_congr ?_ ?_
    · by_cases hr : r = x
      · simp only [hr, if_true, alu, hres]
      · simp only [hr, if_false, Option.isSome_none, Bool.false_eq_true]
    · by_cases hf : r = 0xF
      · simp only [hf, if_true, alu, true_and]
      · simp only [hf, if_false, Option.isSome_none, Bool.false_eq_true, false_and]
  · obtain ⟨h1, h2⟩ := h v hv
    rw [hx, completeAlu]
    simp only [aluWrites, alu, h1, h2]

/-- A class-8 instruction whose function takes both registers. -/
theorem completesWith_aluXY {i : Instr} {s : State} {fn : AluFn} {x y : Nibble}
    (hi : ∀ u, exec i u = completeAlu u fn x (operandY u y))
    (hw : ∀ r, r ∈ writesV i ↔ r = x ∨ (r = 0xF ∧ (aluFlag fn (operandX s x) (operandY s y)).isSome))
    (hres : (aluRes fn (operandX s x) (operandY s y)).isSome) (hx : x ∈ readsV i) (hy : y ∈ readsV i) :
    CompletesWith i s (aluWrites x (alu fn (operandX s x) (operandY s y))) .seq none :=
  completesWith_alu (b := fun u => operandY u y) hi hw hres fun v hv => by
    simp only [operandX, operandY, hv x hx, hv y hy, and_self]

/-! ### Every instruction that answers a next state -/

/-- A slot writes no register, and reads those its word names (R24). -/
theorem slot_registers {i : Instr} {k : SlotKind} (h : slotKind i = some k) :
    writesV i = [] ∧ xOf (encode i) ∈ readsV i ∧ yOf (encode i) ∈ readsV i := by
  cases i <;> simp only [slotKind, Option.some.injEq, reduceCtorEq] at h <;> simp [writesV, readsV, encode]

theorem completesWith_slot {i : Instr} {k : SlotKind} {s : State} (h : slotKind i = some k)
    (hp : s.config.slotPolicy = .emitAndAdvance) :
    CompletesWith i s [] .seq (some (.slot (slotRecord s k (encode i)))) := by
  obtain ⟨hw, hx, hy⟩ := slot_registers h
  refine completesWith_noWrites hw (by simp) (by simp) (fun v hv => ?_)
  have hrec : slotRecord { s with v := v } k (encode i) = slotRecord s k (encode i) := by
    simp only [slotRecord, operandX, operandY, hv _ hx, hv _ hy]
  rw [exec_slot _ h]
  simp only [completeSlot, hp, hrec]

theorem execRet_pop {s : State} {w : Word} {rest : List Word} (h : s.stack = rest ++ [w]) :
    exec .ret s = complete s [.stack rest] (.ret w) none := by
  simp [exec, execRet, pop, h]

theorem execRet_underflow {s : State} (h : s.stack = []) : exec .ret s = failOn s .stackUnderflow .ret := by
  simp [exec, execRet, pop, h]

theorem execCall_push {s : State} (nnn : Addr) (h : s.stack.length < 16) :
    exec (.call nnn) s = complete s [.stack (s.stack ++ [s.pc + 2])] (.abs nnn) none := by
  have hp : push s (returnAddress s) = .ok (s.stack ++ [s.pc + 2]) := if_neg (Nat.not_le.mpr h)
  simp only [exec, execCall, hp]

theorem execCall_overflow {s : State} (nnn : Addr) (h : 16 ≤ s.stack.length) :
    exec (.call nnn) s = failOn s .stackOverflow (.call nnn) := by
  have hp : push s (returnAddress s) = .error .stackOverflow := if_pos h
  simp only [exec, execCall, hp]

theorem completesWith_ret {s : State} {w : Word} {rest : List Word} (h : s.stack = rest ++ [w]) :
    CompletesWith .ret s [.stack rest] (.ret w) none where
  answers v _ := execRet_pop h
  registers r := by simp [writesV, lastByteFor, Write.byteFor]
  index := by simp
  stack l hl := by
    obtain rfl : l = rest := by simpa using hl
    exact .inl ⟨rfl, w, h⟩
  popped u hu := by
    obtain rfl : w = u := by simpa using hu
    simp [h]
  rel0 := by simp

theorem completesWith_call {s : State} (nnn : Addr) (h : s.stack.length < 16) :
    CompletesWith (.call nnn) s [.stack (s.stack ++ [s.pc + 2])] (.abs nnn) none where
  answers v _ := execCall_push nnn h
  registers r := by simp [writesV, lastByteFor, Write.byteFor]
  index := by simp
  stack l hl := .inr ⟨⟨nnn, rfl⟩, h, by simpa using hl⟩
  popped := by simp
  rel0 := by simp

theorem completesWith_ldI (s : State) (nnn : Addr) :
    CompletesWith (.ldI nnn) s [.i (zextAddr nnn)] .seq none where
  answers _ _ := rfl
  registers r := by simp [writesV, lastByteFor, Write.byteFor]
  index w hw := ⟨nnn, rfl, by simpa using hw⟩
  stack := by simp
  popped := by simp
  rel0 := by simp

/-- An instruction that is neither a slot nor one of the two stack instructions completes from every state. -/
theorem exec_completes {i : Instr} (s : State) (hslot : slotKind i = none) (hret : i ≠ .ret)
    (hcall : ∀ nnn, i ≠ .call nnn) : ∃ ws n ev, CompletesWith i s ws n ev := by
  cases i with
  | ret => exact absurd rfl hret
  | call nnn => exact absurd rfl (hcall nnn)
  | cls => exact ⟨_, _, _, completesWith_noWrites rfl (by simp) (by simp) fun _ _ => rfl⟩
  | jp nnn => exact ⟨_, _, _, completesWith_noWrites rfl (by simp) (by simp) fun _ _ => rfl⟩
  | jpV0 nnn =>
    exact ⟨_, _, _, completesWith_noWrites (n := .rel0 nnn) rfl (by simp) (by simp [readsV]) fun _ _ => rfl⟩
  | ldI nnn => exact ⟨_, _, _, completesWith_ldI s nnn⟩
  | ldImm x kk =>
    exact ⟨[.v x kk], _, _, completesWith_seq (by simp [writesV, lastByteFor, Write.byteFor]) (by simp) (by simp)
      fun _ _ => rfl⟩
  | rnd x kk =>
    exact ⟨[.v x (operandRnd s &&& kk), .useRnd], _, _,
      completesWith_seq (by simp [writesV, lastByteFor, Write.byteFor]) (by simp) (by simp) fun _ _ => rfl⟩
  | seImm x kk | sneImm x kk =>
    refine ⟨_, _, _, completesWith_skip rfl (fun _ => rfl) fun v hv => ?_⟩
    simp only [operandX, hv x (by simp [readsV])]
  | seReg x y | sneReg x y =>
    refine ⟨_, _, _, completesWith_skip rfl (fun _ => rfl) fun v hv => ?_⟩
    simp only [operandX, operandY, hv x (by simp [readsV]), hv y (by simp [readsV])]
  | addImm x kk =>
    refine ⟨_, _, _, completesWith_alu (fun _ => rfl) (by simp [writesV, aluFlag]) rfl fun v hv => ?_⟩
    simp only [operandX, hv x (by simp [readsV]), and_self]
  | ldReg x y =>
    refine ⟨_, _, _, completesWith_alu (fun _ => rfl) (by simp [writesV, aluFlag]) rfl fun v hv => ?_⟩
    simp only [operandY, hv y (by simp [readsV]), aluRes, aluFlag, and_self]
  | shrReg x y | shlReg x y =>
    refine ⟨_, _, _, completesWith_alu (fun _ => rfl) (by simp [writesV, aluFlag]) rfl fun v hv => ?_⟩
    simp only [operandX, hv x (by simp [readsV]), aluRes, aluFlag, and_self]
  | orReg x y | andReg x y | xorReg x y | addReg x y | subReg x y | subnReg x y =>
    exact ⟨_, _, _, completesWith_aluXY (fun _ => rfl) (by simp [writesV, aluFlag]) rfl (by simp [readsV])
      (by simp [readsV])⟩
  | _ => exact absurd hslot (by simp [slotKind])

/-- An instruction that answers a next state completes, or is a stack instruction whose own check fails, which does not
depend on the register file (60_exceptions.md R222). -/
theorem exec_next_cases {i : Instr} {s t : State} (h : exec i s = .next t) :
    (∃ ws n ev, CompletesWith i s ws n ev) ∨
    ((i = .ret ∨ ∃ nnn, i = .call nnn) ∧ writesV i = [] ∧
      ∃ k, k ≠ .outOfBounds ∧ ∀ v, exec i { s with v := v } = failOn { s with v := v } k i) := by
  by_cases hret : i = .ret
  · subst hret
    rcases pop_cases s with ⟨hs, -⟩ | ⟨w, rest, hs, -⟩
    · exact .inr ⟨.inl rfl, rfl, .stackUnderflow, by simp, fun _ => execRet_underflow hs⟩
    · exact .inl ⟨_, _, _, completesWith_ret hs⟩
  by_cases hcall : ∃ nnn, i = .call nnn
  · obtain ⟨nnn, rfl⟩ := hcall
    rcases Nat.lt_or_ge s.stack.length 16 with hs | hs
    · exact .inl ⟨_, _, _, completesWith_call nnn hs⟩
    · exact .inr ⟨.inr ⟨nnn, rfl⟩, rfl, .stackOverflow, by simp, fun _ => execCall_overflow nnn hs⟩
  left
  cases hk : slotKind i with
  | none => exact exec_completes s hk hret fun nnn hi => hcall ⟨nnn, hi⟩
  | some k =>
    rcases completeSlot_cases s k (encode i) with ⟨hp, -⟩ | ⟨-, hx⟩
    · exact ⟨_, _, _, completesWith_slot hk hp⟩
    · rw [exec_slot s hk, hx] at h
      cases h

/-- From `s` itself the instruction answers the commit of its writes. -/
theorem CompletesWith.eq_of_exec {i : Instr} {s t : State} {ws : List Write} {n : NextPc} {ev : Option Event}
    (hc : CompletesWith i s ws n ev) (h : exec i s = .next t) : complete s ws n ev = .next t :=
  (hc.answers s.v fun _ _ => rfl).symm.trans h

/-! ### 10_state.md R25, R29, R30: the invariant -/

/-- A cycle that completes keeps the invariant when the I, the stack and the popped address it commits keep to their
bounds; the other next-pc sources do so by themselves (R29). -/
theorem complete_keeps_inv {s t : State} {ws : List Write} {n : NextPc} {ev : Option Event} (hI : Inv s)
    (hrun : s.run = .running) (hpc : s.pc.toNat ≤ 0x0FFE) (hi : ∀ w, Write.i w ∈ ws → w.toNat ≤ 0x0FFF)
    (hstack : ∀ l, Write.stack l ∈ ws → l.length ≤ 16 ∧ ∀ w ∈ l, w.toNat ≤ 0x1000)
    (hret : ∀ w, n = .ret w → w.toNat ≤ 0x1000) (h : complete s ws n ev = .next t) : Inv t := by
  obtain ⟨kpc, kmem, kconfig, krun, -⟩ := complete_kept h
  have ht := complete_eq h
  have hs : t.stack.length ≤ 16 ∧ ∀ w ∈ t.stack, w.toNat ≤ 0x1000 := by
    rcases applyWrites_stack s ws with hw | hw
    · rw [ht, setEvent_stack, setPc_stack, hw]
      exact ⟨hI.depth, hI.entries⟩
    · rw [ht, setEvent_stack, setPc_stack]
      exact hstack _ hw
  refine { mem := by rw [kconfig, kmem]; exact hI.mem, depth := hs.1, entries := hs.2, pc := ?_, i := ?_, run := ?_ }
  · rw [kpc]
    cases n with
    | seq =>
      have := pc_add2_toNat hpc
      simp only [nextPc]
      omega
    | skip =>
      have := pc_add4_toNat hpc
      simp only [nextPc]
      omega
    | abs nnn =>
      have := nnn.isLt
      simp only [nextPc, zextAddr_toNat]
      omega
    | rel0 nnn =>
      have h1 := nnn.isLt
      have h2 := (readV s 0x0).isLt
      rw [nextPc_rel0_toNat]
      omega
    | ret w =>
      have := hret w rfl
      simp only [nextPc]
      omega
  · rw [ht, setEvent_i, setPc_i]
    rcases applyWrites_i s ws with hw | hw
    · rw [hw]
      exact hI.i
    · exact hi _ hw
  · rw [krun, hrun]
    trivial

/-- Halt entry keeps the invariant when the record holds an opcode exactly for a kind other than OutOfBounds
(60_exceptions.md R221, R222). -/
theorem haltEntry_keeps_inv {s : State} {k : HaltKind} {op : Option Word} (hI : Inv s)
    (hop : op = none ↔ k = .outOfBounds) : Inv (haltEntry s k op) where
  mem := hI.mem
  depth := hI.depth
  entries := hI.entries
  pc := hI.pc
  i := hI.i
  run := ⟨rfl, hop⟩

theorem haltedStep_keeps_inv {s : State} (hI : Inv s) : Inv (haltedStep s) :=
  ⟨hI.mem, hI.depth, hI.entries, hI.pc, hI.i, hI.run⟩

/-- A call pushes an address of at most 0x1000 onto fewer than 16, a return takes one away (R29, R30). -/
theorem CompletesWith.stack_bounds {i : Instr} {s : State} {ws : List Write} {n : NextPc} {ev : Option Event}
    (hc : CompletesWith i s ws n ev) (hI : Inv s) (hpc : s.pc.toNat ≤ 0x0FFE) {l : List Word}
    (hl : Write.stack l ∈ ws) : l.length ≤ 16 ∧ ∀ w ∈ l, w.toNat ≤ 0x1000 := by
  rcases hc.stack l hl with ⟨-, w, hs⟩ | ⟨-, hlen, rfl⟩
  · have hlen : s.stack.length = l.length + 1 := by rw [hs]; simp
    have := hI.depth
    exact ⟨by omega, fun u hu => hI.entries u (by rw [hs]; exact List.mem_append_left _ hu)⟩
  · refine ⟨by simpa using hlen, fun u hu => ?_⟩
    rcases List.mem_append.1 hu with hu | hu
    · exact hI.entries u hu
    · rw [List.mem_singleton.1 hu, pc_add2_toNat hpc]
      omega

theorem exec_keeps_inv {i : Instr} {s t : State} (hI : Inv s) (hrun : s.run = .running) (hpc : s.pc.toNat ≤ 0x0FFE)
    (h : exec i s = .next t) : Inv t := by
  rcases exec_next_cases h with ⟨ws, n, ev, hc⟩ | ⟨-, -, k, hk, hx⟩
  · refine complete_keeps_inv hI hrun hpc (fun w hw => ?_) (fun l hl => hc.stack_bounds hI hpc hl)
      (fun w hn => hI.entries w (hc.popped w hn)) (hc.eq_of_exec h)
    obtain ⟨nnn, -, rfl⟩ := hc.index w hw
    have := nnn.isLt
    rw [zextAddr_toNat]
    omega
  · rw [failOn_eq ((hx s.v).symm.trans h)]
    exact haltEntry_keeps_inv hI (by simp [hk])

theorem execSlotF_keeps_inv {w : Word} {s t : State} (hI : Inv s) (hrun : s.run = .running)
    (hpc : s.pc.toNat ≤ 0x0FFE) (h : execSlotF w s = .next t) : Inv t := by
  rcases completeSlot_cases s (.f (kkOf w)) w with ⟨-, hx⟩ | ⟨-, hx⟩
  · exact complete_keeps_inv hI hrun hpc (by simp) (by simp) (by simp) (hx.symm.trans h)
  · rw [execSlotF, hx] at h
    cases h

/-- A halted core's step, halt entry, and a cycle that completes each keep the invariant. -/
theorem step_keeps_inv {s t : State} (hI : Inv s) (h : step s = .next t) : Inv t := by
  rcases step_cases h with ⟨_, -, rfl⟩ | ⟨hrun, ⟨-, rfl⟩ | ⟨w, -, hpc, hw⟩⟩
  · exact haltedStep_keeps_inv hI
  · exact haltEntry_keeps_inv hI (by simp)
  · rcases hw with ⟨-, rfl⟩ | ⟨_, -, hx⟩ | ⟨i, -, hx⟩
    · exact haltEntry_keeps_inv hI (by simp)
    · exact execSlotF_keeps_inv hI hrun hpc hx
    · exact exec_keeps_inv hI hrun hpc hx

/-- Settles O19, by the cases of what a step can answer. -/
theorem stepKeepsInvariant : Obligations.StepKeepsInvariant := by
  unfold Obligations.StepKeepsInvariant
  exact fun _ _ => step_keeps_inv

/-! ### 70_reset_and_hazards.md R252: the invariant along every session of the host -/

theorem inv_resetWith (c : Config) : Inv (State.resetWith c) where
  mem := reset_wf c
  depth := by simp
  entries := by simp
  pc := by simp
  i := by simp
  run := trivial

theorem inv_hostReset (s : State) : Inv (hostReset s) :=
  have h := inv_resetWith s.config
  ⟨h.mem, h.depth, h.entries, h.pc, h.i, h.run⟩

theorem inv_loadProgram (image : List Byte) {s : State} (hI : Inv s) : Inv (loadProgram image s) :=
  ⟨loadProgram_wf image s hI.mem, hI.depth, hI.entries, hI.pc, hI.i, hI.run⟩

theorem inv_setRnd (b : Byte) {s : State} (hI : Inv s) : Inv (setRnd s b) :=
  ⟨hI.mem, hI.depth, hI.entries, hI.pc, hI.i, hI.run⟩

/-- The core after a move of the host: a reset, a load, a step with the host's byte, or no change. -/
theorem Session.move_cases {h h' : Session} {m : HostMove} (hm : h.move m = .next h') :
    h'.core = hostReset h.core ∨ (∃ image, h'.core = Machine.loadProgram image h.core) ∨
    (∃ b, step (setRnd h.core b) = .next h'.core) ∨ h'.core = h.core := by
  cases m with
  | reset =>
    simp only [Session.move, Host.Outcome.next.injEq] at hm
    exact .inl (hm ▸ rfl)
  | loadProgram image =>
    simp only [Session.move] at hm
    split at hm
    · simp only [Host.Outcome.next.injEq] at hm
      exact .inr (.inl ⟨image, hm ▸ rfl⟩)
    · cases hm
    · cases hm
  | step b =>
    simp only [Session.move] at hm
    split at hm
    · next t ht =>
      simp only [Host.Outcome.next.injEq] at hm
      exact .inr (.inr (.inl ⟨b, hm ▸ ht⟩))
    · cases hm
    · cases hm
  | readStatus =>
    simp only [Session.move, Host.Outcome.next.injEq] at hm
    exact .inr (.inr (.inr (hm ▸ rfl)))

theorem Session.Reachable.inv {h : Session} (hr : h.Reachable) : Inv h.core := by
  induction hr with
  | boot c => exact inv_resetWith c
  | move h h' m _ hm ih =>
    rcases Session.move_cases hm with e | ⟨image, e⟩ | ⟨b, e⟩ | e
    · rw [e]
      exact inv_hostReset _
    · rw [e]
      exact inv_loadProgram image ih
    · exact step_keeps_inv (inv_setRnd b ih) e
    · rw [e]
      exact ih

/-- Settles O21: the cores of the host's sessions meet the invariant, which has the four bounds. -/
theorem reachableStatesStayInBounds : Obligations.ReachableStatesStayInBounds := by
  unfold Obligations.ReachableStatesStayInBounds
  rintro s ⟨h, hr, rfl⟩
  exact ⟨hr.inv.pc, hr.inv.i, hr.inv.depth, hr.inv.entries⟩

/-! ### 10_state.md R34: the status register -/

theorem packStatus_toNat (op pc : Word) (opv : BitVec 1) (kind : BitVec 3) (run : BitVec 1) :
    (packStatus op pc opv kind run).toNat =
      op.toNat * 16777216 + pc.toNat * 256 + opv.toNat * 16 + kind.toNat * 2 + run.toNat := by
  simp only [packStatus, append_toNat, BitVec.ofNat_eq_ofNat, BitVec.toNat_ofNat]
  omega

theorem coreStatus_halted {s : State} {r : HaltRecord} (h : s.run = .halted r) :
    coreStatus s = packStatus (r.op.getD 0) r.haltPc (if r.op = none then 0 else 1) r.kind.code 1 := by
  obtain ⟨kind, pc, op⟩ := r
  cases op <;> simp [coreStatus, h]

theorem extractLsb'_packStatus (op pc : Word) (opv : BitVec 1) (kind : BitVec 3) (run : BitVec 1) (lo len : Nat) :
    ((packStatus op pc opv kind run).extractLsb' lo len).toNat =
      (op.toNat * 16777216 + pc.toNat * 256 + opv.toNat * 16 + kind.toNat * 2 + run.toNat) / 2 ^ lo % 2 ^ len := by
  rw [BitVec.extractLsb'_toNat, packStatus_toNat, Nat.shiftRight_eq_div_pow]

/-- The fields of a packed status, from bit 0 up. -/
theorem packStatus_fields (op pc : Word) (opv : BitVec 1) (kind : BitVec 3) (run : BitVec 1) :
    (packStatus op pc opv kind run).extractLsb' 0 1 = run ∧
    (packStatus op pc opv kind run).extractLsb' 1 3 = kind ∧
    (packStatus op pc opv kind run).extractLsb' 4 1 = opv ∧
    (packStatus op pc opv kind run).extractLsb' 5 3 = 0 ∧
    (packStatus op pc opv kind run).extractLsb' 8 16 = pc ∧
    (packStatus op pc opv kind run).extractLsb' 24 16 = op := by
  have h0 : (0 : BitVec 3).toNat = 0 := rfl
  refine ⟨?_, ?_, ?_, ?_, ?_, ?_⟩ <;>
    (apply BitVec.eq_of_toNat_eq; rw [extractLsb'_packStatus]; omega)

/-- Settles O23: the fields of the packed halt record. -/
theorem coreStatusLayout : Obligations.CoreStatusLayout := by
  unfold Obligations.CoreStatusLayout
  intro s
  refine ⟨fun h => ?_, fun r h => ?_⟩
  · simp only [coreStatus, h]
    decide
  · rw [coreStatus_halted h]
    obtain ⟨hrun, hkind, hopv, hres, hpc, hop⟩ :=
      packStatus_fields (r.op.getD 0) r.haltPc (if r.op = none then 0 else 1) r.kind.code 1
    refine ⟨hrun, ?_, ?_, hres, hpc, hop⟩
    · rw [hkind]
      cases r.kind <;> rfl
    · rw [hopv]
      by_cases hnone : r.op = none <;> simp [hnone]

/-! ### 10_state.md R24: what an instruction writes and reads -/

/-- Settles O55: the commit of a completing instruction changes what its writes reach, and a stack halt the run state
alone. -/
theorem instructionsWriteOnlyWhatTheTableLists : Obligations.InstructionsWriteOnlyWhatTheTableLists := by
  unfold Obligations.InstructionsWriteOnlyWhatTheTableLists
  intro i s t h
  rcases exec_next_cases h with ⟨ws, n, ev, hc⟩ | ⟨hi, -, k, -, hx⟩
  · have hx := hc.eq_of_exec h
    obtain ⟨-, kmem, kconfig, krun, -⟩ := complete_kept hx
    have ht := complete_eq hx
    refine ⟨fun r hr => ?_, fun hne => ?_, fun hne => ?_, fun hne => absurd krun hne, fun a => ?_, kconfig⟩
    · have hlast : lastByteFor r ws = none := by
        rw [← Option.not_isSome_iff_eq_none, hc.registers]
        exact hr
      rw [ht, readV_setEvent, readV_setPc, readV_applyWrites, hlast, Option.getD_none]
    · rw [ht, setEvent_i, setPc_i] at hne
      obtain ⟨nnn, hi, -⟩ := hc.index _ ((applyWrites_i s ws).resolve_left hne)
      exact ⟨nnn, hi⟩
    · rw [ht, setEvent_stack, setPc_stack] at hne
      exact (hc.stack _ ((applyWrites_stack s ws).resolve_left hne)).imp And.left And.left
    · rw [readByte, kmem, kconfig, readByte]
  · rw [failOn_eq ((hx s.v).symm.trans h)]
    exact ⟨fun _ _ => rfl, fun hne => absurd rfl hne, fun hne => absurd rfl hne, fun _ => hi, fun _ => rfl, rfl⟩

/-- The next pc does not depend on a register the instruction does not read (R27). -/
theorem CompletesWith.nextPc_eq {i : Instr} {s : State} {ws : List Write} {n : NextPc} {ev : Option Event}
    (hc : CompletesWith i s ws n ev) {v : Vector Byte 16} (hv : AgreesOnReads i s v) :
    nextPc { s with v := v } n = nextPc s n := by
  cases n with
  | rel0 nnn => rw [nextPc, hv 0x0 (hc.rel0 nnn rfl), nextPc]
  | seq => rfl
  | skip => rfl
  | abs nnn => rfl
  | ret w => rfl

/-- Settles O56: from both states the same writes are committed, and a register they reach holds their last byte. -/
theorem instructionsReadOnlyWhatTheTableLists : Obligations.InstructionsReadOnlyWhatTheTableLists := by
  unfold Obligations.InstructionsReadOnlyWhatTheTableLists
  intro i s t v hv h
  rcases exec_next_cases h with ⟨ws, n, ev, hc⟩ | ⟨-, hw, k, -, hx⟩
  · refine ⟨_, hc.answers v hv, ?_, fun r hr => ?_⟩
    · rw [complete_eq (hc.eq_of_exec h), hc.nextPc_eq hv]
      exact congrArg (fun u => setEvent (setPc u (nextPc s n)) ev) (applyWrites_withV ws s v)
    · obtain ⟨b, hb⟩ := Option.isSome_iff_exists.1 ((hc.registers r).2 hr)
      rw [complete_eq (hc.eq_of_exec h)]
      simp only [readV_setEvent, readV_setPc, readV_applyWrites, hb, Option.getD_some]
  · refine ⟨_, hx v, ?_, by simp [hw]⟩
    rw [failOn_eq ((hx s.v).symm.trans h)]
    rfl

end Sys2Proof.Machine

/-! ## Memory (20_memory.md): no step writes it, and what the load and the ports write reads back -/

namespace Sys2Proof.Machine

/-! ### R56: no step writes memory -/

theorem exec_keeps_memory {i : Instr} {s t : State} (h : exec i s = .next t) :
    t.mem = s.mem ∧ t.config = s.config := by
  rcases exec_cases i s with ⟨ws, n, ev, hx⟩ | ⟨-, -, hx⟩ | ⟨-, -, hx⟩ | ⟨-, -, hx⟩ <;> rw [hx] at h
  · obtain ⟨-, hmem, hconfig, -⟩ := complete_kept h
    exact ⟨hmem, hconfig⟩
  · rw [failOn_eq h]
    exact ⟨rfl, rfl⟩
  · rw [failOn_eq h]
    exact ⟨rfl, rfl⟩
  · cases h

theorem execSlotF_keeps_memory {w : Word} {s t : State} (h : execSlotF w s = .next t) :
    t.mem = s.mem ∧ t.config = s.config := by
  rcases completeSlot_cases s (.f (kkOf w)) w with ⟨-, hx⟩ | ⟨-, hx⟩ <;> rw [execSlotF, hx] at h
  · obtain ⟨-, hmem, hconfig, -⟩ := complete_kept h
    exact ⟨hmem, hconfig⟩
  · cases h

/-- A halted core's step, halt entry, and every instruction leave memory and the parameters alone (R56). -/
theorem step_keeps_memory {s t : State} (h : step s = .next t) : t.mem = s.mem ∧ t.config = s.config := by
  rcases step_cases h with ⟨_, -, rfl⟩ | ⟨-, ⟨-, rfl⟩ | ⟨w, -, -, hw⟩⟩
  · exact ⟨rfl, rfl⟩
  · exact ⟨rfl, rfl⟩
  · rcases hw with ⟨-, rfl⟩ | ⟨_, -, hx⟩ | ⟨_, -, hx⟩
    · exact ⟨rfl, rfl⟩
    · exact execSlotF_keeps_memory hx
    · exact exec_keeps_memory hx

theorem step_readByte {s t : State} (h : step s = .next t) (a : Nat) : readByte t a = readByte s a := by
  obtain ⟨hmem, hconfig⟩ := step_keeps_memory h
  rw [readByte, hmem, hconfig, readByte]

/-! ### R58, R59: the program load -/

/-- What every address reads as after a program load: the bytes of the truncated image from 0x200 on, elsewhere the byte
of before. -/
theorem readByte_loadProgram (image : List Byte) {s : State} (hw : Memory.wf s.config s.mem = true) (a : Nat) :
    readByte (loadProgram image s) a =
      if 0x200 ≤ a then ((image.take 3584)[a - 0x200]?).getD (readByte s a) else readByte s a := by
  refine Memory.read_writeAll s.config (image.take 3584) s.mem 0x200 a hw ?_
  have := List.length_take_le 3584 image
  omega

theorem readByte_loadProgram_inside {image : List Byte} {s : State} (hw : Memory.wf s.config s.mem = true) {k : Nat}
    (h : k < image.length) (hk : k < 3584) : readByte (loadProgram image s) (0x200 + k) = image[k] := by
  rw [readByte_loadProgram image hw, if_pos (Nat.le_add_right _ _), Nat.add_sub_cancel_left,
    List.getElem?_take_of_lt hk, List.getElem?_eq_getElem h, Option.getD_some]

theorem readByte_loadProgram_outside {image : List Byte} {s : State} (hw : Memory.wf s.config s.mem = true) {a : Nat}
    (ha : a < 0x200 ∨ 0x200 + image.length ≤ a ∨ 0x1000 ≤ a) :
    readByte (loadProgram image s) a = readByte s a := by
  rw [readByte_loadProgram image hw]
  split
  · have hend : (image.take 3584).length ≤ a - 0x200 := by
      rw [List.length_take]
      omega
    rw [List.getElem?_eq_none hend, Option.getD_none]
  · rfl

/-- Settles O25, by what every address reads as after the consecutive stores of a load. -/
theorem loadedImageReadsBack : Obligations.LoadedImageReadsBack := by
  unfold Obligations.LoadedImageReadsBack
  intro image s hw
  exact ⟨fun _ => readByte_loadProgram_inside hw, fun _ => readByte_loadProgram_outside hw, rfl⟩

/-! ### R56, R252: the reserved region along every session of the host -/

/-- Every address below 0x200 reads as it does in the reset machine of the same parameters (10_state.md R36; R54). -/
def ReservedAsReset (s : State) : Prop := ∀ a, a < 0x200 → readByte s a = readByte (State.resetWith s.config) a

theorem reservedAsReset_hostReset (s : State) : ReservedAsReset (hostReset s) := fun _ _ => rfl

/-- The image starts at 0x200, above the reserved region. -/
theorem ReservedAsReset.loadProgram (image : List Byte) {s : State} (h : ReservedAsReset s)
    (hw : Memory.wf s.config s.mem = true) : ReservedAsReset (Machine.loadProgram image s) :=
  fun a ha => (readByte_loadProgram_outside hw (.inl ha)).trans (h a ha)

theorem ReservedAsReset.step {b : Byte} {s t : State} (h : ReservedAsReset s) (hs : step (setRnd s b) = .next t) :
    ReservedAsReset t := by
  intro a ha
  rw [step_readByte hs, (step_keeps_memory hs).2, readByte_setRnd, setRnd_config]
  exact h a ha

theorem Session.Reachable.reservedAsReset {h : Session} (hr : h.Reachable) : ReservedAsReset h.core := by
  induction hr with
  | boot c => exact fun _ _ => rfl
  | move h h' m hr hm ih =>
    rcases Session.move_cases hm with e | ⟨image, e⟩ | ⟨b, e⟩ | e
    · rw [e]
      exact reservedAsReset_hostReset _
    · rw [e]
      exact ih.loadProgram image hr.inv.mem
    · exact ih.step e
    · rw [e]
      exact ih

/-- Settles O22: no step writes memory, and along a session a load stores from 0x200 on while a reset restores all. -/
theorem reservedRegionKeepsResetContents : Obligations.ReservedRegionKeepsResetContents := by
  unfold Obligations.ReservedRegionKeepsResetContents
  refine ⟨fun _ _ => step_readByte, ?_⟩
  rintro s ⟨h, hr, rfl⟩
  exact hr.reservedAsReset

/-! ### R51: the memory ports -/

theorem memWrite_ok {s : State} {a : Word} (b : Byte) (h : a.toNat ≤ 0x0FFF) :
    memWrite s a b = .ok { s with mem := Memory.write s.config s.mem a.toNat b } :=
  if_neg (by omega)

theorem memWrite_error {s : State} {a : Word} (b : Byte) (h : 0x0FFF < a.toNat) :
    memWrite s a b = .error (.outOfBounds a.toNat) :=
  if_pos h

/-- The read port after a store: the stored byte at its address, at every other address the answer of before, the
failure above 0x0FFF included. -/
theorem memRead_write {s : State} {a : Word} (b : Byte) (hw : Memory.wf s.config s.mem = true)
    (ha : a.toNat ≤ 0x0FFF) (c : Word) :
    memRead { s with mem := Memory.write s.config s.mem a.toNat b } c = if c = a then .ok b else memRead s c := by
  have hread : readByte { s with mem := Memory.write s.config s.mem a.toNat b } c.toNat =
      if c.toNat = a.toNat then b else readByte s c.toNat := Memory.read_write s.config s.mem 0 a.toNat c.toNat b hw
  by_cases hc : c = a
  · subst hc
    rw [memRead_ok ha, hread, if_pos rfl, if_pos rfl]
  · rw [memRead, hread, if_neg (mt BitVec.eq_of_toNat_eq hc), if_neg hc, memRead]

/-- Settles O26: both ports check the same bound, and a read after a store is `memRead_write`. -/
theorem memoryPortsReadWhatWasWritten : Obligations.MemoryPortsReadWhatWasWritten := by
  unfold Obligations.MemoryPortsReadWhatWasWritten
  intro s a b hw
  refine ⟨fun ha => ⟨memRead_ok ha, _, memWrite_ok b ha, ?_, fun c hc => ?_, rfl⟩,
    fun ha => ⟨memRead_error ha, memWrite_error b ha⟩⟩
  · rw [memRead_write b hw ha, if_pos rfl]
  · rw [memRead_write b hw ha, if_neg hc]

end Sys2Proof.Machine

/-! ## Encoding (30_encoding.md): the decoder, the encoder and the opcode map agree -/

namespace Sys2Proof

/-! ### R73: the classes whose words a second selector divides -/

theorem decodeWord_class0 {w : Word} (h : classOf w = 0x0) : decodeWord w = decodeClass0 w := by
  simp [decodeWord, h]

theorem decodeWord_class8 {w : Word} (h : classOf w = 0x8) : decodeWord w = decodeClass8 w := by
  simp [decodeWord, h]

theorem decodeWord_classE {w : Word} (h : classOf w = 0xE) : decodeWord w = decodeClassE w := by
  simp [decodeWord, h]

theorem decodeWord_classF {w : Word} (h : classOf w = 0xF) : decodeWord w = decodeClassF w := by
  simp [decodeWord, h]

/-! ### R73, R82: the decoder and the encoder are inverse to each other -/

/-- By the formats of R70: the fields of the packed word are the operands, and its class and selector pick the row. -/
theorem decodeWord_encode (i : Instr) : decodeWord (encode i) = .ok i := by
  cases i with
  | cls | ret => rfl
  | jp | call | ldI | jpV0 => simp [encode, decodeWord]
  | seImm | sneImm | ldImm | addImm | rnd => simp [encode, decodeWord]
  | seReg | sneReg | drw => simp [encode, decodeWord]
  | ldReg | orReg | andReg | xorReg | addReg | subReg | shrReg | subnReg | shlReg =>
    rw [encode, decodeWord_class8 (classOf_packXyn _ _ _ _)]
    simp [decodeClass8]
  | skp | sknp =>
    rw [encode, decodeWord_classE (classOf_packXkk _ _ _)]
    simp [decodeClassE]
  | ldVxDt | ldVxK | ldDtVx | ldStVx | addIVx | ldFVx | ldBVx | ldMemVx | ldVxMem =>
    rw [encode, decodeWord_classF (classOf_packXkk _ _ _)]
    simp [decodeClassF]

/-- Settles O1: the decoder reads the word again from its two bytes, and decoding a word inverts encoding. -/
theorem decodeInvertsEncode : Obligations.DecodeInvertsEncode := by
  unfold Obligations.DecodeInvertsEncode
  intro i rest
  rw [decode_wordBytes, decodeWord_encode]
  rfl

theorem encode_injective {i j : Instr} (h : encode i = encode j) : i = j := by
  have hd : decodeWord (encode i) = .ok j := by rw [h, decodeWord_encode]
  rw [decodeWord_encode] at hd
  exact Except.ok.inj hd

theorem packNnn_of_class {w : Word} {c : Nibble} (h : classOf w = c) : packNnn c (nnnOf w) = w := by
  rw [← h, packNnn_fields]

theorem packXkk_of_class {w : Word} {c : Nibble} (h : classOf w = c) : packXkk c (xOf w) (kkOf w) = w := by
  rw [← h, packXkk_fields]

theorem packXyn_of_class {w : Word} {c : Nibble} (h : classOf w = c) : packXyn c (xOf w) (yOf w) (nOf w) = w := by
  rw [← h, packXyn_fields]

theorem packXkk_of_class_kk {w : Word} {c : Nibble} {kk : Byte} (h : classOf w = c) (hk : kkOf w = kk) :
    packXkk c (xOf w) kk = w := by
  rw [← hk, packXkk_of_class h]

theorem packXyn_of_class_n {w : Word} {c n : Nibble} (h : classOf w = c) (hn : nOf w = n) :
    packXyn c (xOf w) (yOf w) n = w := by
  rw [← hn, packXyn_of_class h]

theorem encode_of_decodeClass0 {w : Word} {i : Instr} (h : decodeClass0 w = .ok i) : encode i = w := by
  unfold decodeClass0 at h
  split_ifs at h with h0 h1
  · cases h; exact h0.symm
  · cases h; exact h1.symm

theorem encode_of_decodeClass8 {w : Word} {i : Instr} (hc : classOf w = 0x8) (h : decodeClass8 w = .ok i) :
    encode i = w := by
  unfold decodeClass8 at h
  split_ifs at h with hn hn hn hn hn hn hn hn hn <;> cases h <;> exact packXyn_of_class_n hc hn

theorem encode_of_decodeClassE {w : Word} {i : Instr} (hc : classOf w = 0xE) (h : decodeClassE w = .ok i) :
    encode i = w := by
  unfold decodeClassE at h
  split_ifs at h with hk hk <;> cases h <;> exact packXkk_of_class_kk hc hk

theorem encode_of_decodeClassF {w : Word} {i : Instr} (hc : classOf w = 0xF) (h : decodeClassF w = .ok i) :
    encode i = w := by
  unfold decodeClassF at h
  split_ifs at h with hk hk hk hk hk hk hk hk hk <;> cases h <;> exact packXkk_of_class_kk hc hk


/-- If the decoder answers an instruction, that instruction's word is `w`. -/
def RebuildsWord (w : Word) (r : Except Reject Instr) : Prop := ∀ i, r = .ok i → encode i = w

theorem rebuildsWord_ok {w : Word} {i : Instr} (h : encode i = w) : RebuildsWord w (.ok i) := by
  rintro j hj
  rwa [← Except.ok.inj hj]

theorem rebuildsWord_error (w : Word) (e : Reject) : RebuildsWord w (.error e) := nofun

theorem rebuildsWord_ite {w : Word} {p : Prop} [Decidable p] {r q : Except Reject Instr}
    (hr : p → RebuildsWord w r) (hq : ¬ p → RebuildsWord w q) : RebuildsWord w (if p then r else q) :=
  iteInduction hr hq

/-- The decoder's own chain of classes: a row fixes the bits that are no operand, and its operands are the word's
fields. -/
theorem rebuildsWord_decodeWord (w : Word) : RebuildsWord w (decodeWord w) :=
  rebuildsWord_ite (fun _ _ => encode_of_decodeClass0) fun _ =>
  rebuildsWord_ite (fun h => rebuildsWord_ok (packNnn_of_class h)) fun _ =>
  rebuildsWord_ite (fun h => rebuildsWord_ok (packNnn_of_class h)) fun _ =>
  rebuildsWord_ite (fun h => rebuildsWord_ok (packXkk_of_class h)) fun _ =>
  rebuildsWord_ite (fun h => rebuildsWord_ok (packXkk_of_class h)) fun _ =>
  rebuildsWord_ite (fun h => rebuildsWord_ite (fun hn => rebuildsWord_ok (packXyn_of_class_n h hn)) fun _ =>
    rebuildsWord_error w .class5) fun _ =>
  rebuildsWord_ite (fun h => rebuildsWord_ok (packXkk_of_class h)) fun _ =>
  rebuildsWord_ite (fun h => rebuildsWord_ok (packXkk_of_class h)) fun _ =>
  rebuildsWord_ite (fun h _ => encode_of_decodeClass8 h) fun _ =>
  rebuildsWord_ite (fun h => rebuildsWord_ite (fun hn => rebuildsWord_ok (packXyn_of_class_n h hn)) fun _ =>
    rebuildsWord_error w .class9) fun _ =>
  rebuildsWord_ite (fun h => rebuildsWord_ok (packNnn_of_class h)) fun _ =>
  rebuildsWord_ite (fun h => rebuildsWord_ok (packNnn_of_class h)) fun _ =>
  rebuildsWord_ite (fun h => rebuildsWord_ok (packXkk_of_class h)) fun _ =>
  rebuildsWord_ite (fun h => rebuildsWord_ok (packXyn_of_class h)) fun _ =>
  rebuildsWord_ite (fun h _ => encode_of_decodeClassE h) fun _ _ => encode_of_decodeClassF (by bv_omega)

/-- Settles O2, class by class. -/
theorem encodeRebuildsDecodedWord : Obligations.EncodeRebuildsDecodedWord := by
  unfold Obligations.EncodeRebuildsDecodedWord
  exact rebuildsWord_decodeWord

theorem decodeWord_ok_iff {w : Word} {i : Instr} : decodeWord w = .ok i ↔ encode i = w := by
  constructor
  · exact rebuildsWord_decodeWord w i
  · rintro rfl
    exact decodeWord_encode i

/-! ### R73, R79: the rows of the opcode map -/

theorem mem_opcodeRows {r : OpcodeRow} : r ∈ opcodeRows ↔ ∃ i : Instr, i.row = r := by
  constructor
  · have h : ∀ r ∈ opcodeRows, ∃ i : Instr, i.row = r := by simp [opcodeRows]
    exact h r
  · rintro ⟨i, rfl⟩
    cases i <;> simp [opcodeRows, Instr.row]

theorem matchesWord_encode (i : Instr) : i.row.matchesWord (encode i) = true := by
  refine beq_iff_eq.2 ?_
  cases i with
  | cls | ret => rfl
  | jp nnn | call nnn | ldI nnn | jpV0 nnn => exact nnn_row _ nnn
  | seImm x kk | sneImm x kk | ldImm x kk | addImm x kk | rnd x kk => exact xkk_row _ x kk
  | drw x y n => exact xyn_row _ x y n
  | seReg x y | sneReg x y => exact xy_row _ x y _
  | ldReg x y | orReg x y | andReg x y | xorReg x y | addReg x y | subReg x y | shrReg x y | subnReg x y
  | shlReg x y => exact xy_row _ x y _
  | skp x | sknp x => exact x_row _ x _
  | ldVxDt x | ldVxK x | ldDtVx x | ldStVx x | addIVx x | ldFVx x | ldBVx x | ldMemVx x | ldVxMem x =>
    exact x_row _ x _

theorem classOf_of_mask {w : Word} {c : Nibble} (h : w &&& 0xF000 = packXyn c 0x0 0x0 0x0) : classOf w = c := by
  rw [and_mask_class] at h
  simpa using congrArg classOf h

theorem packXyn_of_mask_n {w : Word} {c n : Nibble} (h : w &&& 0xF00F = packXyn c 0x0 0x0 n) :
    packXyn c (xOf w) (yOf w) n = w := by
  rw [and_mask_class_n] at h
  exact packXyn_of_class_n (by simpa using congrArg classOf h) (by simpa using congrArg nOf h)

theorem packXkk_of_mask_kk {w : Word} {c : Nibble} {kk : Byte} (h : w &&& 0xF0FF = packXkk c 0x0 kk) :
    packXkk c (xOf w) kk = w := by
  rw [and_mask_class_kk] at h
  exact packXkk_of_class_kk (by simpa using congrArg classOf h) (by simpa using congrArg kkOf h)

/-- A word that a row matches is the word of an instruction of that row: the word's own fields are the operands. -/
theorem exists_encode_of_matchesWord {i : Instr} {w : Word} (h : i.row.matchesWord w = true) :
    ∃ j : Instr, encode j = w ∧ j.row = i.row := by
  have hm : w &&& i.row.mask = i.row.bits := beq_iff_eq.1 h
  cases i with
  | cls => exact ⟨.cls, hm.symm.trans BitVec.and_allOnes, rfl⟩
  | ret => exact ⟨.ret, hm.symm.trans BitVec.and_allOnes, rfl⟩
  | jp => exact ⟨.jp (nnnOf w), packNnn_of_class (classOf_of_mask hm), rfl⟩
  | call => exact ⟨.call (nnnOf w), packNnn_of_class (classOf_of_mask hm), rfl⟩
  | seImm => exact ⟨.seImm (xOf w) (kkOf w), packXkk_of_class (classOf_of_mask hm), rfl⟩
  | sneImm => exact ⟨.sneImm (xOf w) (kkOf w), packXkk_of_class (classOf_of_mask hm), rfl⟩
  | seReg => exact ⟨.seReg (xOf w) (yOf w), packXyn_of_mask_n hm, rfl⟩
  | ldImm => exact ⟨.ldImm (xOf w) (kkOf w), packXkk_of_class (classOf_of_mask hm), rfl⟩
  | addImm => exact ⟨.addImm (xOf w) (kkOf w), packXkk_of_class (classOf_of_mask hm), rfl⟩
  | ldReg => exact ⟨.ldReg (xOf w) (yOf w), packXyn_of_mask_n hm, rfl⟩
  | orReg => exact ⟨.orReg (xOf w) (yOf w), packXyn_of_mask_n hm, rfl⟩
  | andReg => exact ⟨.andReg (xOf w) (yOf w), packXyn_of_mask_n hm, rfl⟩
  | xorReg => exact ⟨.xorReg (xOf w) (yOf w), packXyn_of_mask_n hm, rfl⟩
  | addReg => exact ⟨.addReg (xOf w) (yOf w), packXyn_of_mask_n hm, rfl⟩
  | subReg => exact ⟨.subReg (xOf w) (yOf w), packXyn_of_mask_n hm, rfl⟩
  | shrReg => exact ⟨.shrReg (xOf w) (yOf w), packXyn_of_mask_n hm, rfl⟩
  | subnReg => exact ⟨.subnReg (xOf w) (yOf w), packXyn_of_mask_n hm, rfl⟩
  | shlReg => exact ⟨.shlReg (xOf w) (yOf w), packXyn_of_mask_n hm, rfl⟩
  | sneReg => exact ⟨.sneReg (xOf w) (yOf w), packXyn_of_mask_n hm, rfl⟩
  | ldI => exact ⟨.ldI (nnnOf w), packNnn_of_class (classOf_of_mask hm), rfl⟩
  | jpV0 => exact ⟨.jpV0 (nnnOf w), packNnn_of_class (classOf_of_mask hm), rfl⟩
  | rnd => exact ⟨.rnd (xOf w) (kkOf w), packXkk_of_class (classOf_of_mask hm), rfl⟩
  | drw => exact ⟨.drw (xOf w) (yOf w) (nOf w), packXyn_of_class (classOf_of_mask hm), rfl⟩
  | skp => exact ⟨.skp (xOf w), packXkk_of_mask_kk hm, rfl⟩
  | sknp => exact ⟨.sknp (xOf w), packXkk_of_mask_kk hm, rfl⟩
  | ldVxDt => exact ⟨.ldVxDt (xOf w), packXkk_of_mask_kk hm, rfl⟩
  | ldVxK => exact ⟨.ldVxK (xOf w), packXkk_of_mask_kk hm, rfl⟩
  | ldDtVx => exact ⟨.ldDtVx (xOf w), packXkk_of_mask_kk hm, rfl⟩
  | ldStVx => exact ⟨.ldStVx (xOf w), packXkk_of_mask_kk hm, rfl⟩
  | addIVx => exact ⟨.addIVx (xOf w), packXkk_of_mask_kk hm, rfl⟩
  | ldFVx => exact ⟨.ldFVx (xOf w), packXkk_of_mask_kk hm, rfl⟩
  | ldBVx => exact ⟨.ldBVx (xOf w), packXkk_of_mask_kk hm, rfl⟩
  | ldMemVx => exact ⟨.ldMemVx (xOf w), packXkk_of_mask_kk hm, rfl⟩
  | ldVxMem => exact ⟨.ldVxMem (xOf w), packXkk_of_mask_kk hm, rfl⟩

/-- The words of a row are the words of its instructions. -/
theorem matchesWord_iff {r : OpcodeRow} (hr : r ∈ opcodeRows) {w : Word} :
    r.matchesWord w = true ↔ ∃ i : Instr, encode i = w ∧ i.row = r := by
  obtain ⟨i, rfl⟩ := mem_opcodeRows.1 hr
  constructor
  · exact exists_encode_of_matchesWord
  · rintro ⟨j, rfl, hj⟩
    rw [← hj]
    exact matchesWord_encode j

/-- Settles O3: a row's words are its instructions' words, and these are the words that decode. -/
theorem decodeAcceptsExactlyTheOpcodeMap : Obligations.DecodeAcceptsExactlyTheOpcodeMap := by
  unfold Obligations.DecodeAcceptsExactlyTheOpcodeMap
  have hrow : ∀ (w : Word) (i : Instr), decodeWord w = .ok i → i.row.matchesWord w = true := by
    intro w i h
    rw [← decodeWord_ok_iff.1 h]
    exact matchesWord_encode i
  refine ⟨fun w => ⟨?_, ?_⟩, hrow⟩
  · rintro ⟨i, h⟩
    exact ⟨i.row, mem_opcodeRows.2 ⟨i, rfl⟩, hrow w i h⟩
  · rintro ⟨r, hr, h⟩
    obtain ⟨i, hi, -⟩ := (matchesWord_iff hr).1 h
    exact ⟨i, decodeWord_ok_iff.2 hi⟩

/-- Settles O4: both rows are the row of the one instruction that the word encodes. -/
theorem opcodeRowsNeverOverlap : Obligations.OpcodeRowsNeverOverlap := by
  unfold Obligations.OpcodeRowsNeverOverlap
  intro w r q hr hq hrw hqw
  obtain ⟨i, hi, rfl⟩ := (matchesWord_iff hr).1 hrw
  obtain ⟨j, hj, rfl⟩ := (matchesWord_iff hq).1 hqw
  rw [encode_injective (hi.trans hj.symm)]


/-! ### R74 to R77, R79: the classification -/

/-- A word of a row outside class F is that row's instruction under every `F_SLOT_SET`. -/
theorem classify_of_encode {w : Word} {i : Instr} (set : FSlotSet) (h : encode i = w) (hf : i.fCode = none) :
    classify set w = .instr i := by
  simp [classify, decodeWord_ok_iff.2 h, Instr.wellFormed, hf]

/-- A word of a class-F row is its instruction where the row's code is in the set (R77). -/
theorem classify_of_encode_fCode {w : Word} {i : Instr} {kk : Byte} (set : FSlotSet) (h : encode i = w)
    (hf : i.fCode = some kk) : classify set w = if set.contains kk then .instr i else .unknown := by
  simp [classify, decodeWord_ok_iff.2 h, Instr.wellFormed, hf]

/-- A word without a row is unknown outside class F (R78). -/
theorem classify_rejected {w : Word} {r : Reject} (set : FSlotSet) (h : decodeWord w = .error r) (hr : r ≠ .classF) :
    classify set w = .unknown := by
  cases r with
  | classF => exact absurd rfl hr
  | _ => simp [classify, h]

/-- A class-F word without a row is a slot where its `kk` is in the set (R77). -/
theorem classify_rowless {w : Word} (set : FSlotSet) (h : decodeWord w = .error .classF) :
    classify set w = if set.contains (kkOf w) then .slotF (kkOf w) else .unknown := by
  simp [classify, h]

theorem classify_class5 (set : FSlotSet) {w : Word} (hc : classOf w = 0x5) :
    classify set w = if nOf w = 0x0 then .instr (.seReg (xOf w) (yOf w)) else .unknown := by
  split_ifs with hn
  · exact classify_of_encode set (packXyn_of_class_n hc hn) rfl
  · exact classify_rejected set (r := .class5) (by simpa [decodeWord, hc] using hn) (by decide)

theorem classify_class9 (set : FSlotSet) {w : Word} (hc : classOf w = 0x9) :
    classify set w = if nOf w = 0x0 then .instr (.sneReg (xOf w) (yOf w)) else .unknown := by
  split_ifs with hn
  · exact classify_of_encode set (packXyn_of_class_n hc hn) rfl
  · exact classify_rejected set (r := .class9) (by simpa [decodeWord, hc] using hn) (by decide)

theorem classify_class8_unknown (set : FSlotSet) {w : Word} (hc : classOf w = 0x8)
    (hn : nOf w ∈ ([0x8, 0x9, 0xA, 0xB, 0xC, 0xD, 0xF] : List Nibble)) : classify set w = .unknown := by
  refine classify_rejected set (r := .class8) ?_ (by decide)
  rw [decodeWord_class8 hc]
  simp only [List.mem_cons, List.not_mem_nil, or_false] at hn
  rcases hn with hn | hn | hn | hn | hn | hn | hn <;> simp [decodeClass8, hn]

/-- Settles O8: the word is the packing of its class, of the row's `n` if it has one, and of its own fields. -/
theorem subOperationsSelectOnN : Obligations.SubOperationsSelectOnN := by
  unfold Obligations.SubOperationsSelectOnN
  intro set w
  refine ⟨classify_class5 set, classify_class9 set, fun hc => ?_, ?_⟩
  · refine ⟨?_, ?_, ?_, ?_, ?_, ?_, ?_, ?_, ?_, classify_class8_unknown set hc⟩ <;>
      exact fun hn => classify_of_encode set (packXyn_of_class_n hc hn) rfl
  · exact ⟨fun hc => classify_of_encode set (packNnn_of_class hc) rfl,
      fun hc => classify_of_encode set (packNnn_of_class hc) rfl,
      fun hc => classify_of_encode set (packXkk_of_class hc) rfl,
      fun hc => classify_of_encode set (packXkk_of_class hc) rfl,
      fun hc => classify_of_encode set (packXkk_of_class hc) rfl,
      fun hc => classify_of_encode set (packXkk_of_class hc) rfl,
      fun hc => classify_of_encode set (packNnn_of_class hc) rfl,
      fun hc => classify_of_encode set (packNnn_of_class hc) rfl,
      fun hc => classify_of_encode set (packXkk_of_class hc) rfl,
      fun hc => classify_of_encode set (packXyn_of_class hc) rfl⟩

/-- Settles O9: the word is the packing of its class, its `x` and the row's `kk`, or the class rejects it. -/
theorem classESelectsOnKk : Obligations.ClassESelectsOnKk := by
  unfold Obligations.ClassESelectsOnKk
  intro set w hc
  split_ifs with h1 h2
  · exact classify_of_encode set (packXkk_of_class_kk hc h1) rfl
  · exact classify_of_encode set (packXkk_of_class_kk hc h2) rfl
  · refine classify_rejected set (r := .classE) ?_ (by decide)
    rw [decodeWord_classE hc, decodeClassE, if_neg h1, if_neg h2]

theorem classify_class0 (set : FSlotSet) {w : Word} (hc : classOf w = 0x0) :
    classify set w = if w = 0x00E0 then .instr .cls else if w = 0x00EE then .instr .ret else .unknown := by
  split_ifs with h1 h2
  · exact classify_of_encode set h1.symm rfl
  · exact classify_of_encode set h2.symm rfl
  · refine classify_rejected set (r := .class0) ?_ (by decide)
    rw [decodeWord_class0 hc, decodeClass0, if_neg h1, if_neg h2]

/-! ### R77: class F -/

theorem slotKind_of_fCode {i : Instr} {kk : Byte} (h : i.fCode = some kk) : Machine.slotKind i = some (.f kk) := by
  cases i <;> simp only [Instr.fCode, Option.some.injEq, reduceCtorEq] at h <;> subst h <;> rfl

/-- The class-F rows are those with an F code, which is the `kk` of their words. -/
theorem fCode_of_classOf_encode {i : Instr} (h : classOf (encode i) = 0xF) : i.fCode = some (kkOf (encode i)) := by
  cases i with
  | cls | ret => exact absurd h (by decide)
  | ldVxDt | ldVxK | ldDtVx | ldStVx | addIVx | ldFVx | ldBVx | ldMemVx | ldVxMem => simp [Instr.fCode, encode]
  | _ => simp [encode] at h

theorem decodeClassF_error {w : Word} {r : Reject} (h : decodeClassF w = .error r) : r = .classF := by
  unfold decodeClassF at h
  split_ifs at h
  exact (Except.error.inj h).symm

/-- A class-F word has a row, whose code is its `kk`, or no row; the slot set decides about its `kk` either way. -/
theorem classify_classF (set : FSlotSet) {w : Word} (hc : classOf w = 0xF) :
    ∃ o, classify set w = (if set.contains (kkOf w) then o else .unknown) ∧
      (o = .slotF (kkOf w) ∨ ∃ i, o = .instr i ∧ encode i = w ∧ Machine.slotKind i = some (.f (kkOf w))) := by
  cases hd : decodeWord w with
  | ok i =>
    obtain rfl := decodeWord_ok_iff.1 hd
    have hf := fCode_of_classOf_encode hc
    exact ⟨.instr i, classify_of_encode_fCode set rfl hf, .inr ⟨i, rfl, rfl, slotKind_of_fCode hf⟩⟩
  | error r =>
    obtain rfl := decodeClassF_error ((decodeWord_classF hc).symm.trans hd)
    exact ⟨.slotF (kkOf w), classify_rowless set hd, .inl rfl⟩

/-- Settles O10: the slot set alone decides, and its three values are lists of codes. -/
theorem classFFollowsTheSlotSet : Obligations.ClassFFollowsTheSlotSet := by
  unfold Obligations.ClassFFollowsTheSlotSet
  refine ⟨fun set w hc => ?_, rfl, fun kk => ⟨List.contains_iff_mem, List.contains_iff_mem, rfl⟩⟩
  obtain ⟨o, ho, hslot⟩ := classify_classF set hc
  constructor
  · intro hk
    simpa [hk] using ho
  · intro hk
    rw [hk, if_pos rfl] at ho
    rwa [ho]


/-! ### R71 and the vectors -/

/-- Settles O5, by the number that each field is of the word. -/
theorem fieldsAreTheWordsBits : Obligations.FieldsAreTheWordsBits := by
  unfold Obligations.FieldsAreTheWordsBits
  intro w
  have hcls : (classOf w).toNat = w.toNat / 4096 := by
    have := w.isLt
    rw [classOf_toNat]
    omega
  exact ⟨hcls, xOf_toNat w, yOf_toNat w, nOf_toNat w, kkOf_toNat w, nnnOf_toNat w⟩

/-- Settles O6: each pair of bytes is the encoding of the instruction named. -/
theorem specWordsDecode : Obligations.SpecWordsDecode := by
  unfold Obligations.SpecWordsDecode
  have h := fun i => decodeInvertsEncode i []
  exact ⟨h .cls, h .ret, h (.jp 0x204), h (.seImm 0x3 0x05), h (.ldImm 0xA 0x03), h (.shlReg 0xA 0xB),
    h (.subnReg 0xB 0xA), h (.jpV0 0x206), h (.drw 0x1 0x2 0x5), h (.ldFVx 0x3)⟩

end Sys2Proof

namespace Sys2Proof.Machine

/-! ### R77, R78: the step of a word that is unknown, and of a class-F slot -/

theorem step_unknown {s : State} {w : Word} (hr : s.run = .running) (hf : fetch s = .ok w)
    (hc : classify s.config.fSlotSet w = .unknown) : step s = .next (haltEntry s .unknownOpcode (some w)) := by
  rw [step_fetched hr hf, hc]

/-- Settles O14: halt entry with the fetched word. -/
theorem unknownWordsHalt : Obligations.UnknownWordsHalt := by
  unfold Obligations.UnknownWordsHalt
  exact fun _ _ => step_unknown

/-- A class-F word whose `kk` is in the slot set runs the common slot rule for that `kk`, with a row or without. -/
theorem step_classF {s : State} {w : Word} (hr : s.run = .running) (hf : fetch s = .ok w) (hc : classOf w = 0xF)
    (hk : s.config.fSlotSet.contains (kkOf w) = true) : step s = completeSlot s (.f (kkOf w)) w := by
  obtain ⟨o, ho, hslot⟩ := classify_classF s.config.fSlotSet hc
  rw [hk, if_pos rfl] at ho
  rw [step_fetched hr hf, ho]
  rcases hslot with rfl | ⟨i, rfl, rfl, hi⟩
  · rfl
  · exact exec_slot s hi

/-- Settles O53: under all 256 codes the word's own `kk` is in the set, and a slot completes under the policy. -/
theorem rowlessClassFSlotsEmit : Obligations.RowlessClassFSlotsEmit := by
  unfold Obligations.RowlessClassFSlotsEmit
  intro s w hr hf hc hall hp
  refine ⟨setEvent (setPc s (s.pc + 2)) (some (.slot (slotRecord s (.f (kkOf w)) w))), ?_, rfl,
    frameV_pcEvent _ _ _ _, rfl⟩
  rw [step_classF hr hf hc (by rw [hall]; rfl), completeSlot, hp]
  rfl

/-! ### R74: class 0 -/

/-- A reset machine with the bytes of a word at 0x200 fetches that word. -/
theorem fetch_loadProgram_resetWith (hi lo : Byte) (c : Config) :
    fetch (loadProgram [hi, lo] (State.resetWith c)) = .ok (wordOfBytes hi lo) := by
  have hbyte : ∀ {k : Nat} (h : k < [hi, lo].length),
      readByte (loadProgram [hi, lo] (State.resetWith c)) (0x200 + k) = [hi, lo][k] :=
    fun h => readByte_loadProgram_inside (reset_wf c) h (lt_of_lt_of_le h (by simp))
  rw [fetch_ok (by simp)]
  exact congrArg₂ (fun a b => Except.ok (wordOfBytes a b)) (hbyte (k := 0) (by simp)) (hbyte (k := 1) (by simp))

/-- Settles O7: the two whole words, and the step of the word 0x0001, which is unknown. -/
theorem classZeroHasTwoInstructions : Obligations.ClassZeroHasTwoInstructions := by
  unfold Obligations.ClassZeroHasTwoInstructions
  refine ⟨fun set _ => classify_class0 set, fun c => ⟨_, step_unknown rfl (fetch_loadProgram_resetWith 0x00 0x01 c) ?_,
    rfl⟩⟩
  exact classify_class0 _ rfl

end Sys2Proof.Machine

/-! ## The assembler (30_encoding.md R81, R82) -/

namespace Sys2Proof.Machine

/-! ### R82: a number is assembled exactly when its field holds it -/

/-- The shared shape of `asmKk`, `asmNnn` and `asmN`. -/
theorem ite_fits_eq_some {n k : Nat} {fits : Bool} (h : fits = true ↔ k < 2 ^ n) (b : BitVec n) :
    (if fits then some (BitVec.ofNat n k) else none) = some b ↔ k = b.toNat := by
  rw [Option.ite_none_right_eq_some, h, Option.some.injEq]
  constructor
  · rintro ⟨hk, rfl⟩
    rw [BitVec.toNat_ofNat, Nat.mod_eq_of_lt hk]
  · rintro rfl
    exact ⟨b.isLt, (BitVec.ofNat_toNat n b).trans b.setWidth_eq⟩

theorem asmKk_eq_some {k : Nat} {kk : Byte} : asmKk k = some kk ↔ k = kk.toNat :=
  ite_fits_eq_some (by rw [kkFits, decide_eq_true_eq]; omega) kk

theorem asmNnn_eq_some {k : Nat} {nnn : Addr} : asmNnn k = some nnn ↔ k = nnn.toNat :=
  ite_fits_eq_some (by rw [nnnFits, decide_eq_true_eq]; omega) nnn

theorem asmN_eq_some {k : Nat} {n : Nibble} : asmN k = some n ↔ k = n.toNat :=
  ite_fits_eq_some (by rw [nFits, decide_eq_true_eq]; omega) n

theorem asmKk_eq_none {k : Nat} (h : 0xFF < k) : asmKk k = none :=
  if_neg (by rw [kkFits, decide_eq_true_eq]; omega)

theorem asmNnn_eq_none {k : Nat} (h : 0xFFF < k) : asmNnn k = none :=
  if_neg (by rw [nnnFits, decide_eq_true_eq]; omega)

theorem asmN_eq_none {k : Nat} (h : 0xF < k) : asmN k = none :=
  if_neg (by rw [nFits, decide_eq_true_eq]; omega)

@[simp] theorem asmKk_toNat (kk : Byte) : asmKk kk.toNat = some kk := asmKk_eq_some.2 rfl

@[simp] theorem asmNnn_toNat (nnn : Addr) : asmNnn nnn.toNat = some nnn := asmNnn_eq_some.2 rfl

@[simp] theorem asmN_toNat (n : Nibble) : asmN n.toNat = some n := asmN_eq_some.2 rfl

theorem assembleLine_disassemble (i : Instr) : assembleLine (disassemble i) = some i := by
  cases i with
  | jp | call | ldI | jpV0 => simp [disassemble, assembleLine, asmJp, asmCall, asmLd]
  | seImm | sneImm | ldImm | addImm | rnd =>
    simp [disassemble, assembleLine, asmSkip, asmLd, asmAdd, asmRnd]
  | drw => simp [disassemble, assembleLine, asmDrw]
  | _ => rfl

/-! ### R81: the lines of each form -/

theorem map_asmKk_eq_some {k : Nat} {f : Byte → Instr} {i : Instr} :
    (asmKk k).map f = some i ↔ ∃ kk : Byte, k = kk.toNat ∧ i = f kk := by
  simp only [Option.map_eq_some_iff, asmKk_eq_some, eq_comm (a := i)]

theorem map_asmNnn_eq_some {k : Nat} {f : Addr → Instr} {i : Instr} :
    (asmNnn k).map f = some i ↔ ∃ nnn : Addr, k = nnn.toNat ∧ i = f nnn := by
  simp only [Option.map_eq_some_iff, asmNnn_eq_some, eq_comm (a := i)]

theorem asmXy_eq_some {f : Nibble → Nibble → Instr} {ops : List AsmOperand} {i : Instr} (h : asmXy f ops = some i) :
    ∃ x y, ops = [.v x, .v y] ∧ i = f x y := by
  unfold asmXy at h
  split at h
  · exact ⟨_, _, rfl, (Option.some.inj h).symm⟩
  · cases h

theorem asmX_eq_some {f : Nibble → Instr} {ops : List AsmOperand} {i : Instr} (h : asmX f ops = some i) :
    ∃ x, ops = [.v x] ∧ i = f x := by
  unfold asmX at h
  split at h
  · exact ⟨_, rfl, (Option.some.inj h).symm⟩
  · cases h

theorem asmNullary_eq_some {i j : Instr} {ops : List AsmOperand} (h : asmNullary j ops = some i) :
    ops = [] ∧ i = j := by
  unfold asmNullary at h
  split at h
  · exact ⟨rfl, (Option.some.inj h).symm⟩
  · cases h

theorem asmShift_eq_some {f : Nibble → Nibble → Instr} {ops : List AsmOperand} {i : Instr}
    (h : asmShift f ops = some i) : (∃ x y, ops = [.v x, .v y] ∧ i = f x y) ∨ ∃ x, ops = [.v x] ∧ i = f x 0x0 := by
  unfold asmShift at h
  split at h
  · exact .inl ⟨_, _, rfl, (Option.some.inj h).symm⟩
  · exact .inr ⟨_, rfl, (Option.some.inj h).symm⟩
  · cases h

theorem asmSkip_eq_some {imm : Nibble → Byte → Instr} {reg : Nibble → Nibble → Instr} {ops : List AsmOperand}
    {i : Instr} (h : asmSkip imm reg ops = some i) :
    (∃ (x : Nibble) (kk : Byte), ops = [.v x, .num kk.toNat] ∧ i = imm x kk) ∨
    ∃ x y, ops = [.v x, .v y] ∧ i = reg x y := by
  unfold asmSkip at h
  split at h
  · obtain ⟨kk, rfl, rfl⟩ := map_asmKk_eq_some.1 h
    exact .inl ⟨_, kk, rfl, rfl⟩
  · exact .inr ⟨_, _, rfl, (Option.some.inj h).symm⟩
  · cases h

theorem asmLd_eq_some {ops : List AsmOperand} {i : Instr} (h : asmLd ops = some i) : ⟨.ld, ops⟩ = disassemble i := by
  unfold asmLd at h
  split at h
  · obtain ⟨kk, rfl, rfl⟩ := map_asmKk_eq_some.1 h; rfl
  · cases h; rfl
  · obtain ⟨nnn, rfl, rfl⟩ := map_asmNnn_eq_some.1 h; rfl
  all_goals cases h <;> rfl

theorem asmAdd_eq_some {ops : List AsmOperand} {i : Instr} (h : asmAdd ops = some i) :
    ⟨.add, ops⟩ = disassemble i := by
  unfold asmAdd at h
  split at h
  · obtain ⟨kk, rfl, rfl⟩ := map_asmKk_eq_some.1 h; rfl
  all_goals cases h <;> rfl

theorem asmJp_eq_some {ops : List AsmOperand} {i : Instr} (h : asmJp ops = some i) : ⟨.jp, ops⟩ = disassemble i := by
  unfold asmJp at h
  split at h
  · obtain ⟨nnn, rfl, rfl⟩ := map_asmNnn_eq_some.1 h; rfl
  · split_ifs at h with hx
    obtain ⟨nnn, rfl, rfl⟩ := map_asmNnn_eq_some.1 h
    rw [hx]; rfl
  · cases h

theorem asmCall_eq_some {ops : List AsmOperand} {i : Instr} (h : asmCall ops = some i) :
    ⟨.call, ops⟩ = disassemble i := by
  unfold asmCall at h
  split at h
  · obtain ⟨nnn, rfl, rfl⟩ := map_asmNnn_eq_some.1 h; rfl
  · cases h

theorem asmRnd_eq_some {ops : List AsmOperand} {i : Instr} (h : asmRnd ops = some i) :
    ⟨.rnd, ops⟩ = disassemble i := by
  unfold asmRnd at h
  split at h
  · obtain ⟨kk, rfl, rfl⟩ := map_asmKk_eq_some.1 h; rfl
  · cases h

theorem asmDrw_eq_some {ops : List AsmOperand} {i : Instr} (h : asmDrw ops = some i) :
    ⟨.drw, ops⟩ = disassemble i := by
  unfold asmDrw at h
  split at h
  · obtain ⟨n, hn, rfl⟩ := Option.map_eq_some_iff.1 h
    rw [asmN_eq_some.1 hn]; rfl
  · cases h

/-- A line that assembles is its instruction's own line, or the shorthand `SHR Vx` or `SHL Vx`. -/
theorem assembleLine_eq_some {l : AsmLine} {i : Instr} (h : assembleLine l = some i) :
    l = disassemble i ∨
    (∃ x, l = { mnemonic := .shr, operands := [.v x] } ∧ i = .shrReg x 0x0) ∨
    (∃ x, l = { mnemonic := .shl, operands := [.v x] } ∧ i = .shlReg x 0x0) := by
  obtain ⟨m, ops⟩ := l
  cases m with
  | cls | ret => obtain ⟨rfl, rfl⟩ := asmNullary_eq_some h; exact .inl rfl
  | jp => exact .inl (asmJp_eq_some h)
  | call => exact .inl (asmCall_eq_some h)
  | se | sne => rcases asmSkip_eq_some h with ⟨x, kk, rfl, rfl⟩ | ⟨x, y, rfl, rfl⟩ <;> exact .inl rfl
  | ld => exact .inl (asmLd_eq_some h)
  | add => exact .inl (asmAdd_eq_some h)
  | or | and | xor | sub | subn => obtain ⟨x, y, rfl, rfl⟩ := asmXy_eq_some h; exact .inl rfl
  | shr =>
    rcases asmShift_eq_some h with ⟨x, y, rfl, rfl⟩ | ⟨x, rfl, rfl⟩
    · exact .inl rfl
    · exact .inr (.inl ⟨x, rfl, rfl⟩)
  | shl =>
    rcases asmShift_eq_some h with ⟨x, y, rfl, rfl⟩ | ⟨x, rfl, rfl⟩
    · exact .inl rfl
    · exact .inr (.inr ⟨x, rfl, rfl⟩)
  | rnd => exact .inl (asmRnd_eq_some h)
  | drw => exact .inl (asmDrw_eq_some h)
  | skp | sknp => obtain ⟨x, rfl, rfl⟩ := asmX_eq_some h; exact .inl rfl

/-! ### R82: what the assembler refuses -/

theorem assembleLine_kk_refused (x : Nibble) {k : Nat} (hk : 0xFF < k) {m : Mnemonic} (hm : m ≠ .jp) :
    assembleLine { mnemonic := m, operands := [.v x, .num k] } = none := by
  cases m with
  | jp => exact absurd rfl hm
  | se | sne | ld | add | rnd =>
    simp only [assembleLine, asmSkip, asmLd, asmAdd, asmRnd, asmKk_eq_none hk, Option.map_none]
  | _ => rfl

theorem assembleLine_nnn_refused {k : Nat} (hk : 0xFFF < k) (m : Mnemonic) :
    assembleLine { mnemonic := m, operands := [.num k] } = none := by
  cases m with
  | jp | call => simp only [assembleLine, asmJp, asmCall, asmNnn_eq_none hk, Option.map_none]
  | _ => rfl

theorem assembleLine_n_refused (x y : Nibble) {k : Nat} (hk : 0xF < k) (m : Mnemonic) :
    assembleLine { mnemonic := m, operands := [.v x, .v y, .num k] } = none := by
  cases m with
  | drw => simp only [assembleLine, asmDrw, asmN_eq_none hk, Option.map_none]
  | _ => rfl

/-- Settles O11, form by form. -/
theorem assemblerHasOneWordPerForm : Obligations.AssemblerHasOneWordPerForm := by
  unfold Obligations.AssemblerHasOneWordPerForm
  refine ⟨assembleLine_disassemble, fun _ _ => assembleLine_eq_some, fun x _ hk _ => assembleLine_kk_refused x hk,
    fun x k hk => ⟨assembleLine_nnn_refused hk, ?_, ?_⟩, fun x y _ hk => assembleLine_n_refused x y hk⟩
  · simp only [assembleLine, asmLd, asmNnn_eq_none hk, Option.map_none]
  · simp only [assembleLine, asmJp, asmNnn_eq_none hk, Option.map_none, ite_self]

end Sys2Proof.Machine

/-! ## The engine (40_engine.md): what a step runs, how a cycle fails, and what each instruction emits and reads -/

namespace Sys2Proof

/-! ### R79: the instruction that a word is classified as -/

theorem decodeWord_of_decode {hi lo : Byte} {i : Instr} {rest : List Byte} (h : decode [hi, lo] = .ok (i, rest)) :
    decodeWord (wordOfBytes hi lo) = .ok i := by
  simp only [decode] at h
  split at h
  · next j hj =>
    cases h
    exact hj
  · cases h

/-- A word is classified as an instruction exactly when it is the instruction's encoding and the slot set has the row
(R77). -/
theorem classify_instr_iff {set : FSlotSet} {w : Word} {i : Instr} :
    classify set w = .instr i ↔ encode i = w ∧ i.wellFormed set = true := by
  rw [← decodeWord_ok_iff]
  cases hd : decodeWord w with
  | ok j =>
    rw [Except.ok.injEq]
    simp only [classify, hd]
    split_ifs with hj
    · rw [Op.instr.injEq]
      exact ⟨fun h => ⟨h, h ▸ hj⟩, And.left⟩
    · exact ⟨nofun, fun ⟨h, hi⟩ => absurd (h ▸ hi) hj⟩
  | error r =>
    by_cases hr : r = .classF
    · subst hr
      rw [classify_rowless set hd]
      split_ifs <;> simp
    · simp [classify_rejected set hd hr]

end Sys2Proof

namespace Sys2Proof.Machine

/-! ### R102, R105, R111, R115: one equation per branch of a step, beside `step_unknown` -/

theorem step_halted {s : State} {r : HaltRecord} (h : s.run = .halted r) : step s = .next (haltedStep s) := by
  simp only [step, h]

theorem step_outOfBounds {s : State} (hr : s.run = .running) (hpc : 0x0FFE < s.pc.toNat) :
    step s = .next (haltEntry s .outOfBounds none) := by
  obtain ⟨f, hf⟩ := fetch_error hpc
  simp only [step, hr, hf]

theorem step_slotF {s : State} {w : Word} {kk : Byte} (hr : s.run = .running) (hf : fetch s = .ok w)
    (hc : classify s.config.fSlotSet w = .slotF kk) : step s = completeSlot s (.f (kkOf w)) w := by
  rw [step_fetched hr hf, hc]
  rfl

theorem step_instr {s : State} {w : Word} {i : Instr} (hr : s.run = .running) (hf : fetch s = .ok w)
    (hc : classify s.config.fSlotSet w = .instr i) : step s = exec i s := by
  rw [step_fetched hr hf, hc]

/-- Settles O12: the fetched word is the one the two bytes make, and it is classified as the decoded instruction. -/
theorem stepRunsTheDecodedInstruction : Obligations.StepRunsTheDecodedInstruction := by
  unfold Obligations.StepRunsTheDecodedInstruction
  intro s i hr hpc hd hw
  have hi : encode i = _ := decodeWord_ok_iff.1 (decodeWord_of_decode hd)
  exact step_instr hr (fetch_ok hpc) (classify_instr_iff.2 ⟨hi, hw⟩)

/-- Settles O13, by what the fetch answers up to 0x0FFE and the step's branch above it. -/
theorem fetchIsBigEndianAndBounded : Obligations.FetchIsBigEndianAndBounded := by
  unfold Obligations.FetchIsBigEndianAndBounded
  exact ⟨fun _ hpc => ⟨_, fetch_ok hpc, wordOfBytes_toNat _ _⟩, fun _ => step_outOfBounds⟩

/-! ### R111: steps of a halted core -/

theorem core_run_of_step {M : Host.Core} {s s' : M.State} (k : Nat) (h : M.step s = .next s') :
    M.run (k + 1) s = M.run k s' := by
  rw [core_run_succ, h]

/-- A state that steps to itself is where every run from it ends. -/
theorem core_run_fixed {M : Host.Core} {s : M.State} (h : M.step s = .next s) (k : Nat) : M.run k s = .next s := by
  induction k with
  | zero => rfl
  | succ k ih => exact (core_run_of_step k h).trans ih

/-- The first step leaves a halted state without an event, which every further step answers again. -/
theorem run_halted {s : State} {r : HaltRecord} (n : Nat) (h : s.run = .halted r) :
    Host.Core.run Sys2Proof.core (n + 1) s = .next (haltedStep s) :=
  (core_run_of_step (M := Sys2Proof.core) n (step_halted h)).trans
    (core_run_fixed (M := Sys2Proof.core) (step_halted (s := haltedStep s) h) n)

/-- Settles O17, by the state that the first step leaves. -/
theorem haltedCoreAbsorbsSteps : Obligations.HaltedCoreAbsorbsSteps := by
  unfold Obligations.HaltedCoreAbsorbsSteps
  exact fun n _ _ => run_halted n

/-! ### R102, R213: every step answers, or refuses a slot -/

theorem completeSlot_answers_or_refuses (s : State) (k : SlotKind) (w : Word) :
    (∃ t, completeSlot s k w = .next t) ∨
    (completeSlot s k w = .refused (.slotRefused w) ∧ s.config.slotPolicy = .refuse) := by
  rcases completeSlot_cases s k w with ⟨-, hx⟩ | ⟨hp, hx⟩
  · exact .inl ⟨_, hx⟩
  · exact .inr ⟨hx, hp⟩

theorem exec_answers_or_refuses (i : Instr) (s : State) :
    (∃ t, exec i s = .next t) ∨
    (exec i s = .refused (.slotRefused (encode i)) ∧ s.config.slotPolicy = .refuse ∧ ∃ k, slotKind i = some k) := by
  rcases exec_cases i s with ⟨ws, n, ev, hx⟩ | ⟨-, -, hx⟩ | ⟨-, -, hx⟩ | ⟨hp, hk, hx⟩
  · exact .inl ⟨_, hx⟩
  · exact .inl ⟨_, hx⟩
  · exact .inl ⟨_, hx⟩
  · exact .inr ⟨hx, hp, hk⟩

/-- Settles O18, branch by branch of the step: only a slot, with a row or without, can be refused. -/
theorem stepAlwaysAnswersOrRefusesASlot : Obligations.StepAlwaysAnswersOrRefusesASlot := by
  unfold Obligations.StepAlwaysAnswersOrRefusesASlot
  intro s
  cases hr : s.run with
  | halted r => exact .inl ⟨_, step_halted hr⟩
  | running =>
    rcases Nat.lt_or_ge 0x0FFE s.pc.toNat with hpc | hpc
    · exact .inl ⟨_, step_outOfBounds hr hpc⟩
    obtain ⟨w, hf⟩ := (fetch_ok_iff s).2 hpc
    cases hc : classify s.config.fSlotSet w with
    | unknown => exact .inl ⟨_, step_unknown hr hf hc⟩
    | slotF kk =>
      rw [step_slotF hr hf hc]
      exact (completeSlot_answers_or_refuses s _ w).imp_right fun ⟨hx, hp⟩ => ⟨w, hx, hf, hp, .inr ⟨kk, hc⟩⟩
    | instr i =>
      rw [step_instr hr hf hc]
      obtain ⟨rfl, -⟩ := classify_instr_iff.1 hc
      exact (exec_answers_or_refuses i s).imp_right fun ⟨hx, hp, k, hk⟩ => ⟨_, hx, hf, hp, .inl ⟨i, k, hc, hk⟩⟩

/-! ### R110: a failing cycle is halt entry -/

/-- A slot that answers a next state has completed (46_collaborator_slots.md R200). -/
theorem completeSlot_next {s t : State} {k : SlotKind} {w : Word} (h : completeSlot s k w = .next t) :
    s.config.slotPolicy = .emitAndAdvance ∧ complete s [] .seq (some (.slot (slotRecord s k w))) = .next t := by
  rcases completeSlot_cases s k w with ⟨hp, hx⟩ | ⟨-, hx⟩
  · exact ⟨hp, hx.symm.trans h⟩
  · rw [hx] at h
    cases h

theorem complete_run {s t : State} {ws : List Write} {n : NextPc} {ev : Option Event}
    (h : complete s ws n ev = .next t) : t.run = s.run := by
  obtain ⟨-, -, -, hrun, -⟩ := complete_kept h
  exact hrun

theorem complete_event {s t : State} {ws : List Write} {n : NextPc} {ev : Option Event}
    (h : complete s ws n ev = .next t) : t.event = ev := by
  obtain ⟨-, -, -, -, hev⟩ := complete_kept h
  exact hev

theorem exec_keeps_run_or_halts {i : Instr} {s t : State} (h : exec i s = .next t) :
    t.run = s.run ∨ ∃ k, t = haltEntry s k (some (encode i)) := by
  rcases exec_cases i s with ⟨ws, n, ev, hx⟩ | ⟨-, -, hx⟩ | ⟨-, -, hx⟩ | ⟨-, -, hx⟩ <;> rw [hx] at h
  · exact .inl (complete_run h)
  · exact .inr ⟨_, failOn_eq h⟩
  · exact .inr ⟨_, failOn_eq h⟩
  · cases h

theorem step_keeps_running_or_halts {s t : State} (hr : s.run = .running) (h : step s = .next t) :
    t.run = .running ∨ ∃ k op, t = haltEntry s k op := by
  rcases step_cases h with ⟨r, hh, -⟩ | ⟨-, ⟨-, rfl⟩ | ⟨w, -, -, hw⟩⟩
  · rw [hr] at hh
    cases hh
  · exact .inr ⟨_, _, rfl⟩
  · rcases hw with ⟨-, rfl⟩ | ⟨_, -, hx⟩ | ⟨i, -, hx⟩
    · exact .inr ⟨_, _, rfl⟩
    · exact .inl ((complete_run (completeSlot_next hx).2).trans hr)
    · rcases exec_keeps_run_or_halts hx with hrun | ⟨k, rfl⟩
      · exact .inl (hrun.trans hr)
      · exact .inr ⟨_, _, rfl⟩

/-- Settles O16: a cycle that leaves the core halted is halt entry, which writes the run state and the event. -/
theorem failingCycleChangesOnlyTheRunState : Obligations.FailingCycleChangesOnlyTheRunState := by
  unfold Obligations.FailingCycleChangesOnlyTheRunState
  intro s t r hr h ht
  rcases step_keeps_running_or_halts hr h with hrun | ⟨k, op, rfl⟩
  · rw [hrun] at ht
    cases ht
  · rw [haltEntry_run] at ht
    rw [← ht]
    rfl

/-! ### R110, R112: the event of each instruction -/

theorem exec_cls_event {s t : State} (h : exec .cls s = .next t) : t.event = some .displayClear :=
  complete_event h

theorem exec_slot_event {i : Instr} {k : SlotKind} {s t : State} (hk : slotKind i = some k)
    (h : exec i s = .next t) : t.event = some (.slot (slotRecord s k (encode i))) := by
  rw [exec_slot s hk] at h
  exact complete_event (completeSlot_next h).2

/-- A stack instruction completes without an event, or its own check fails (41_system_flow.md R131, R133); either way
it does the same whatever the random byte is. -/
theorem exec_stack_cases {i : Instr} (s : State) (hi : i = .ret ∨ ∃ nnn, i = .call nnn) :
    (∃ ws n, Write.useRnd ∉ ws ∧ ∀ b, exec i (setRnd s b) = complete (setRnd s b) ws n none) ∨
    ∃ k, ∀ b, exec i (setRnd s b) = failOn (setRnd s b) k i := by
  rcases hi with rfl | ⟨nnn, rfl⟩
  · rcases pop_cases s with ⟨hs, -⟩ | ⟨w, rest, hs, -⟩
    · exact .inr ⟨_, fun _ => execRet_underflow hs⟩
    · exact .inl ⟨[.stack rest], .ret w, by simp, fun _ => execRet_pop hs⟩
  · rcases Nat.lt_or_ge s.stack.length 16 with hs | hs
    · exact .inl ⟨[.stack (s.stack ++ [s.pc + 2])], .abs nnn, by simp, fun _ => execCall_push nnn hs⟩
    · exact .inr ⟨_, fun _ => execCall_overflow nnn hs⟩

/-- An instruction that is neither CLS nor a slot completes without an event, or is a stack instruction that halts. -/
theorem exec_silent {i : Instr} {s t : State} (hcls : i ≠ .cls) (hslot : slotKind i = none)
    (h : exec i s = .next t) : t.event = none := by
  by_cases hstack : i = .ret ∨ ∃ nnn, i = .call nnn
  · rcases exec_stack_cases s hstack with ⟨ws, n, -, hx⟩ | ⟨k, hx⟩
    · exact complete_event ((hx s.rnd).symm.trans h)
    · rw [failOn_eq ((hx s.rnd).symm.trans h), haltEntry_event]
  cases i with
  | cls => exact absurd rfl hcls
  | ret | call => exact absurd (by simp) hstack
  | jp | jpV0 | ldI | ldImm | rnd | seImm | sneImm | seReg | sneReg | addImm | ldReg | orReg | andReg | xorReg | addReg
  | subReg | shrReg | subnReg | shlReg => exact complete_event h
  | _ => exact absurd hslot (by simp [slotKind])

/-- Settles O54: CLS, a slot and any other instruction each have their own event. -/
theorem onlyClsAndSlotsEmitEvents : Obligations.OnlyClsAndSlotsEmitEvents := by
  unfold Obligations.OnlyClsAndSlotsEmitEvents
  intro i s t h
  by_cases hcls : i = .cls
  · subst hcls
    simp [exec_cls_event h, slotKind]
  cases hk : slotKind i with
  | some k => simp [exec_slot_event hk h, hcls]
  | none => simp [exec_silent hcls hk h, hcls]

/-! ### R101, R192: the random byte -/

theorem applyWrites_setRnd (b : Byte) {ws : List Write} (hw : Write.useRnd ∉ ws) :
    ∀ s : State, applyWrites (setRnd s b) ws = setRnd (applyWrites s ws) b := by
  induction ws with
  | nil => exact fun _ => rfl
  | cons w ws ih =>
    intro s
    have ih := ih fun hm => hw (List.mem_cons_of_mem w hm)
    cases w with
    | useRnd => exact absurd List.mem_cons_self hw
    | flag b' => exact ih (setV s 0xF b')
    | v x b' => exact ih (setV s x b')
    | i w => exact ih (setI s w)
    | stack l => exact ih (setStack s l)

theorem nextPc_setRnd (s : State) (b : Byte) (n : NextPc) : nextPc (setRnd s b) n = nextPc s n := by
  cases n <;> rfl

/-- A cycle that does not use the random byte up commits the same writes whatever the byte is. -/
theorem complete_setRnd {s t : State} {ws : List Write} {n : NextPc} {ev : Option Event} (b : Byte)
    (hw : Write.useRnd ∉ ws) (h : complete s ws n ev = .next t) :
    complete (setRnd s b) ws n ev = .next (setRnd t b) := by
  rw [complete_eq h, complete, applyWrites_setRnd b hw, nextPc_setRnd]
  rfl

theorem completeAlu_setRnd {s t : State} {fn : AluFn} {x : Nibble} {c : Byte} (b : Byte)
    (h : completeAlu s fn x c = .next t) : completeAlu (setRnd s b) fn x c = .next (setRnd t b) :=
  complete_setRnd b (by simp [aluWrites]) h

theorem completeSkip_setRnd {s t : State} {taken : Bool} (b : Byte) (h : completeSkip s taken = .next t) :
    completeSkip (setRnd s b) taken = .next (setRnd t b) :=
  complete_setRnd b List.not_mem_nil h

theorem completeSlot_setRnd {s t : State} {k : SlotKind} {w : Word} (b : Byte) (h : completeSlot s k w = .next t) :
    completeSlot (setRnd s b) k w = .next (setRnd t b) := by
  obtain ⟨hp, hx⟩ := completeSlot_next h
  rw [completeSlot, setRnd_config, hp]
  exact complete_setRnd b List.not_mem_nil hx

theorem failOn_setRnd {s t : State} {k : HaltKind} {i : Instr} (b : Byte) (h : failOn s k i = .next t) :
    failOn (setRnd s b) k i = .next (setRnd t b) := by
  rw [failOn_eq h]
  rfl

theorem exec_setRnd {i : Instr} {s t : State} (b : Byte) (hrnd : ∀ x kk, i ≠ .rnd x kk) (h : exec i s = .next t) :
    exec i (setRnd s b) = .next (setRnd t b) := by
  by_cases hstack : i = .ret ∨ ∃ nnn, i = .call nnn
  · rcases exec_stack_cases s hstack with ⟨ws, n, hw, hx⟩ | ⟨k, hx⟩
    · exact (hx b).trans (complete_setRnd b hw ((hx s.rnd).symm.trans h))
    · exact (hx b).trans (failOn_setRnd b ((hx s.rnd).symm.trans h))
  cases hk : slotKind i with
  | some k =>
    rw [exec_slot _ hk] at h ⊢
    exact completeSlot_setRnd b h
  | none =>
    cases i with
    | rnd x kk => exact absurd rfl (hrnd x kk)
    | ret | call => exact absurd (by simp) hstack
    | cls | jp | jpV0 => exact complete_setRnd b List.not_mem_nil h
    | ldI | ldImm => exact complete_setRnd b (by simp) h
    | seImm | sneImm | seReg | sneReg => exact completeSkip_setRnd b h
    | addImm | ldReg | orReg | andReg | xorReg | addReg | subReg | shrReg | subnReg | shlReg =>
      exact completeAlu_setRnd b h
    | _ => cases hk

/-- Settles O28: RND alone reads the byte, and alone uses it up. -/
theorem onlyRndReadsTheRandomByte : Obligations.OnlyRndReadsTheRandomByte := by
  unfold Obligations.OnlyRndReadsTheRandomByte
  exact fun _ _ _ b => exec_setRnd b

end Sys2Proof.Machine

/-! ## System and flow (41_system_flow.md): CLS, RET, JP, CALL and calls in a row -/

namespace Sys2Proof.Machine

/-! ### R131, R133: the state after a completed call or return -/

/-- `s` once a stack instruction has completed: the stack is now `l`, and the pc is `pc`. -/
def stackJump (s : State) (l : List Word) (pc : Word) : State := setEvent (setPc (setStack s l) pc) none

@[simp] theorem stackJump_stack (s : State) (l : List Word) (pc : Word) : (stackJump s l pc).stack = l := rfl
@[simp] theorem stackJump_pc (s : State) (l : List Word) (pc : Word) : (stackJump s l pc).pc = pc := rfl
@[simp] theorem stackJump_run (s : State) (l : List Word) (pc : Word) : (stackJump s l pc).run = s.run := rfl
@[simp] theorem stackJump_event (s : State) (l : List Word) (pc : Word) : (stackJump s l pc).event = none := rfl

theorem frameV_stackJump (s : State) (l : List Word) (pc : Word) :
    FrameV s { stackJump s l pc with stack := s.stack } [] :=
  frameV_pcEvent s pc none []

/-- A second stack instruction that leaves the stack of before the first has undone the first's change of it. -/
theorem frameV_stackJump_stackJump (s : State) (l : List Word) (pc pc' : Word) :
    FrameV s (stackJump (stackJump s l pc) s.stack pc') [] :=
  frameV_pcEvent s pc' none []

theorem execRet_eq_stackJump {s : State} {w : Word} {rest : List Word} (h : s.stack = rest ++ [w]) :
    exec .ret s = .next (stackJump s rest w) :=
  execRet_pop h

theorem execCall_eq_stackJump {s : State} (nnn : Addr) (h : depth s < 16) :
    exec (.call nnn) s = .next (stackJump s (s.stack ++ [s.pc + 2]) (zextAddr nnn)) :=
  execCall_push nnn h

/-! ### 95_test_vectors.md S4: calls in a row -/

theorem depth_stackJump_push (s : State) (w pc : Word) : depth (stackJump s (s.stack ++ [w]) pc) = depth s + 1 := by
  simp [depth]

theorem callAll_cons {s : State} (nnn : Addr) (targets : List Addr) (h : depth s < 16) :
    callAll (nnn :: targets) s = callAll targets (stackJump s (s.stack ++ [s.pc + 2]) (zextAddr nnn)) := by
  simp only [callAll, execCall_eq_stackJump nnn h, stackJump_run, if_true]

/-- As many calls as the stack has room for complete, and each adds one entry. -/
theorem callAll_completes (targets : List Addr) : ∀ s : State, depth s + targets.length ≤ 16 →
    ∃ t, callAll targets s = some t ∧ depth t = depth s + targets.length ∧ t.run = s.run := by
  induction targets with
  | nil => exact fun s _ => ⟨s, rfl, rfl, rfl⟩
  | cons nnn targets ih =>
    intro s h
    rw [List.length_cons] at h ⊢
    have hd := depth_stackJump_push s (s.pc + 2) (zextAddr nnn)
    obtain ⟨t, hall, hdepth, hrun⟩ := ih (stackJump s (s.stack ++ [s.pc + 2]) (zextAddr nnn)) (by omega)
    exact ⟨t, (callAll_cons nnn targets (by omega)).trans hall, by omega, hrun⟩

/-! ### The obligations -/

/-- Settles O30: the pop answers the last entry, and on an empty stack RET's own check fails. -/
theorem retPopsOrUnderflows : Obligations.RetPopsOrUnderflows := by
  unfold Obligations.RetPopsOrUnderflows
  constructor
  · intro s w rest h
    exact ⟨_, execRet_eq_stackJump h, stackJump_pc s rest w, stackJump_stack s rest w, stackJump_event s rest w,
      frameV_stackJump s rest w⟩
  · exact fun s h => execRet_underflow h

/-- Settles O32: the push has room below 16 entries, and at 16 CALL's own check fails. -/
theorem callPushesOrOverflows : Obligations.CallPushesOrOverflows := by
  unfold Obligations.CallPushesOrOverflows
  constructor
  · intro s nnn h
    exact ⟨_, execCall_eq_stackJump nnn h, zextAddr_toNat nnn, stackJump_stack s _ _, stackJump_event s _ _,
      frameV_stackJump s _ _⟩
  · exact fun s nnn h => execCall_overflow nnn h.ge

/-- Settles O33: the entry that the call has pushed is the last one, so the return pops it. -/
theorem returnUndoesCall : Obligations.ReturnUndoesCall := by
  unfold Obligations.ReturnUndoesCall
  intro s nnn h
  have hlast := stackJump_stack s (s.stack ++ [s.pc + 2]) (zextAddr nnn)
  exact ⟨_, _, execCall_eq_stackJump nnn h, execRet_eq_stackJump hlast, stackJump_pc _ _ _,
    frameV_stackJump_stackJump s _ _ _⟩

/-- Settles O34: the empty stack has room for sixteen calls, which fill it. -/
theorem sixteenNestedCallsThenOverflow : Obligations.SixteenNestedCallsThenOverflow := by
  unfold Obligations.SixteenNestedCallsThenOverflow
  intro s targets nnn hstack hrun hlen
  have hempty : depth s = 0 := by rw [depth, hstack, List.length_nil]
  obtain ⟨t, hall, hdepth, htrun⟩ := callAll_completes targets s (by omega)
  have hfull : depth t = 16 := by omega
  exact ⟨t, hall, hfull, htrun.trans hrun, execCall_overflow nnn hfull.ge⟩

/-- Settles O29: CLS completes with no write and its event. -/
theorem clsEmitsDisplayClear : Obligations.ClsEmitsDisplayClear := by
  unfold Obligations.ClsEmitsDisplayClear
  exact fun s => ⟨_, rfl, rfl, rfl, frameV_pcEvent s _ _ []⟩

/-- Settles O31: JP completes with no write, and zero extension keeps the target as a number. -/
theorem jpSetsThePc : Obligations.JpSetsThePc := by
  unfold Obligations.JpSetsThePc
  exact fun s nnn => ⟨_, rfl, zextAddr_toNat nnn, rfl, frameV_pcEvent s _ _ []⟩

end Sys2Proof.Machine

/-! ## The conditional skips (42_skips.md R140 to R143) -/

namespace Sys2Proof.Machine

/-! ### Each skip is the shared skip on its own comparison -/

theorem exec_seImm (s : State) (x : Nibble) (kk : Byte) :
    exec (.seImm x kk) s = completeSkip s (readV s x == kk) := rfl

theorem exec_sneImm (s : State) (x : Nibble) (kk : Byte) :
    exec (.sneImm x kk) s = completeSkip s (readV s x != kk) := rfl

theorem exec_seReg (s : State) (x y : Nibble) :
    exec (.seReg x y) s = completeSkip s (readV s x == readV s y) := rfl

theorem exec_sneReg (s : State) (x y : Nibble) :
    exec (.sneReg x y) s = completeSkip s (readV s x != readV s y) := rfl

/-! ### The two outcomes of a skip, under the propositions that its condition decides -/

theorem completeSkip_outcomes (s : State) {taken : Bool} {P Q : Prop} (hP : P → taken = true)
    (hQ : Q → taken = false) :
    ∃ t, completeSkip s taken = .next t ∧ (P → t.pc = s.pc + 4) ∧ (Q → t.pc = s.pc + 2) ∧ t.event = none ∧
      FrameV s t [] := by
  obtain ⟨t, hx, hpc, hev, hframe⟩ := completeSkip_spec s taken
  refine ⟨t, hx, fun h => ?_, fun h => ?_, hev, hframe⟩
  · rw [hpc, hP h, if_pos rfl]
  · rw [hpc, hQ h, if_neg Bool.false_ne_true]

theorem completeSkip_beq (s : State) (a b : Byte) :
    ∃ t, completeSkip s (a == b) = .next t ∧ (a = b → t.pc = s.pc + 4) ∧ (a ≠ b → t.pc = s.pc + 2) ∧
      t.event = none ∧ FrameV s t [] :=
  completeSkip_outcomes s beq_iff_eq.2 beq_eq_false_iff_ne.2

theorem completeSkip_bne (s : State) (a b : Byte) :
    ∃ t, completeSkip s (a != b) = .next t ∧ (a ≠ b → t.pc = s.pc + 4) ∧ (a = b → t.pc = s.pc + 2) ∧
      t.event = none ∧ FrameV s t [] :=
  completeSkip_outcomes s bne_iff_ne.2 bne_eq_false_iff_eq.2

/-! ### The obligations -/

/-- Settles O35: the condition is the comparison of `V[x]` with `kk`. -/
theorem seImmSkipsOnEqual : Obligations.SeImmSkipsOnEqual := by
  unfold Obligations.SeImmSkipsOnEqual
  intro s x kk
  rw [exec_seImm]
  exact completeSkip_beq s (readV s x) kk

/-- Settles O36: the condition is the negated comparison of `V[x]` with `kk`. -/
theorem sneImmSkipsOnUnequal : Obligations.SneImmSkipsOnUnequal := by
  unfold Obligations.SneImmSkipsOnUnequal
  intro s x kk
  rw [exec_sneImm]
  exact completeSkip_bne s (readV s x) kk

/-- Settles O37: the condition compares two registers, and a register equals itself. -/
theorem seRegSkipsOnEqual : Obligations.SeRegSkipsOnEqual := by
  unfold Obligations.SeRegSkipsOnEqual
  intro s x y
  rw [exec_seReg]
  obtain ⟨t, hx, heq, hne, hev, hframe⟩ := completeSkip_beq s (readV s x) (readV s y)
  exact ⟨t, hx, heq, hne, fun hxy => heq (congrArg (readV s) hxy), hev, hframe⟩

/-- Settles O38: the condition is the negated comparison of two registers, and a register equals itself. -/
theorem sneRegSkipsOnUnequal : Obligations.SneRegSkipsOnUnequal := by
  unfold Obligations.SneRegSkipsOnUnequal
  intro s x y
  rw [exec_sneReg]
  obtain ⟨t, hx, hne, heq, hev, hframe⟩ := completeSkip_bne s (readV s x) (readV s y)
  exact ⟨t, hx, hne, heq, fun hxy => heq (congrArg (readV s) hxy), hev, hframe⟩

end Sys2Proof.Machine

/-! ## Register and immediate (43_register_immediate.md R150, R151) -/

namespace Sys2Proof.Machine

/-- `s` once an instruction has completed that writes `b` to `V[x]` and nothing else: the pc is `pc`. -/
def loadV (s : State) (x : Nibble) (b : Byte) (pc : Word) : State := setEvent (setPc (setV s x b) pc) none

@[simp] theorem loadV_pc (s : State) (x : Nibble) (b : Byte) (pc : Word) : (loadV s x b pc).pc = pc := rfl
@[simp] theorem loadV_event (s : State) (x : Nibble) (b : Byte) (pc : Word) : (loadV s x b pc).event = none := rfl

@[simp] theorem readV_loadV_same (s : State) (x : Nibble) (b : Byte) (pc : Word) : readV (loadV s x b pc) x = b :=
  readV_setV_same s x b

theorem frameV_loadV (s : State) (x : Nibble) (b : Byte) (pc : Word) : FrameV s (loadV s x b pc) [x] where
  mem _ := rfl
  config := rfl
  run := rfl
  v _ hr := readV_setV_other s b (List.ne_of_not_mem_cons hr)
  i := rfl
  stack := rfl
  rnd := rfl
  draws := rfl

theorem exec_ldImm (s : State) (x : Nibble) (kk : Byte) :
    exec (.ldImm x kk) s = .next (loadV s x kk (s.pc + 2)) := rfl

/-- ADDNF writes no flag, so the sum in `V[x]` is the only write (R151, R161). -/
theorem exec_addImm (s : State) (x : Nibble) (kk : Byte) :
    exec (.addImm x kk) s = .next (loadV s x (readV s x + kk) (s.pc + 2)) := rfl

/-- Settles O39: LD Vx, kk writes `kk` to `V[x]` and nothing else. -/
theorem ldImmLoadsKk : Obligations.LdImmLoadsKk := by
  unfold Obligations.LdImmLoadsKk
  exact fun s x kk => ⟨_, exec_ldImm s x kk, readV_loadV_same s x kk _, loadV_pc s x kk _, loadV_event s x kk _,
    frameV_loadV s x kk _⟩

/-- Settles O40: ADD Vx, kk writes the sum of two bytes to `V[x]`, which is their sum modulo 256. -/
theorem addImmWrapsWithoutFlag : Obligations.AddImmWrapsWithoutFlag := by
  unfold Obligations.AddImmWrapsWithoutFlag
  intro s x kk
  refine ⟨_, exec_addImm s x kk, ?_, loadV_pc s x _ _, loadV_event s x _ _, frameV_loadV s x _ _⟩
  rw [readV_loadV_same, BitVec.toNat_add]

end Sys2Proof.Machine

/-! ## The ALU and class 8 (44_alu_register.md R161 to R170) -/

namespace Sys2Proof.Machine

/-! ### R161: the results and the flags as numbers -/

theorem byte_sub_toInt (a b : Byte) : ((a - b).toNat : Int) = ((a.toNat : Int) - b.toNat) % 256 := by
  have hb := b.isLt
  rw [BitVec.toNat_sub]
  omega

theorem byte_shiftRight_one_toNat (a : Byte) : (a >>> 1).toNat = a.toNat / 2 := by
  rw [BitVec.toNat_ushiftRight, Nat.shiftRight_eq_div_pow, pow_one]

theorem byte_shiftLeft_one_toNat (a : Byte) : (a <<< 1).toNat = a.toNat * 2 % 256 := by
  rw [BitVec.toNat_shiftLeft, Nat.shiftLeft_eq, pow_one]

theorem carryFlag_eq_ite (a b : Byte) : carryFlag a b = if 255 < a.toNat + b.toNat then 0x01 else 0x00 := by
  simp only [carryFlag, flagByte, decide_eq_true_eq]

theorem noBorrowFlag_eq_ite (a b : Byte) : noBorrowFlag a b = if b.toNat ≤ a.toNat then 0x01 else 0x00 := by
  simp only [noBorrowFlag, flagByte, decide_eq_true_eq]

theorem shiftRightFlag_toNat (a : Byte) : (shiftRightFlag a).toNat = a.toNat % 2 := by
  rw [shiftRightFlag, BitVec.toNat_and]
  exact Nat.and_one_is_mod a.toNat

/-- The bit that SHL shifts out is the highest of the byte, so the quotient by 128 is a bit already. -/
theorem shiftLeftFlag_toNat (a : Byte) : (shiftLeftFlag a).toNat = a.toNat / 128 := by
  have ha := a.isLt
  have hbit : (shiftLeftFlag a).toNat = a.toNat / 128 % 2 := by
    rw [shiftLeftFlag, BitVec.toNat_and, BitVec.toNat_ushiftRight, Nat.shiftRight_eq_div_pow]
    exact Nat.and_one_is_mod (a.toNat / 128)
  omega

theorem alu_fe_iff (fn : AluFn) (a b : Byte) :
    (alu fn a b).fe = true ↔ fn ∈ ([.add, .sub, .shr, .subn, .shl] : List AluFn) := by
  cases fn <;> simp [AluOut.fe, alu, aluFlag]

/-! ### R161: the rows of the functions with a flag -/

theorem alu_add (a b : Byte) :
    ∃ r f, alu .add a b = { res := some r, flag := some f, eq := a == b } ∧
      r.toNat = (a.toNat + b.toNat) % 256 ∧ f = if 255 < a.toNat + b.toNat then 0x01 else 0x00 :=
  ⟨_, _, rfl, BitVec.toNat_add a b, carryFlag_eq_ite a b⟩

theorem alu_sub (a b : Byte) :
    ∃ r f, alu .sub a b = { res := some r, flag := some f, eq := a == b } ∧
      (r.toNat : Int) = ((a.toNat : Int) - b.toNat) % 256 ∧ f = if b.toNat ≤ a.toNat then 0x01 else 0x00 :=
  ⟨_, _, rfl, byte_sub_toInt a b, noBorrowFlag_eq_ite a b⟩

theorem alu_shr (a b : Byte) :
    ∃ r f, alu .shr a b = { res := some r, flag := some f, eq := a == b } ∧
      r.toNat = a.toNat / 2 ∧ f.toNat = a.toNat % 2 :=
  ⟨_, _, rfl, byte_shiftRight_one_toNat a, shiftRightFlag_toNat a⟩

theorem alu_subn (a b : Byte) :
    ∃ r f, alu .subn a b = { res := some r, flag := some f, eq := a == b } ∧
      (r.toNat : Int) = ((b.toNat : Int) - a.toNat) % 256 ∧ f = if a.toNat ≤ b.toNat then 0x01 else 0x00 :=
  ⟨_, _, rfl, byte_sub_toInt b a, noBorrowFlag_eq_ite b a⟩

theorem alu_shl (a b : Byte) :
    ∃ r f, alu .shl a b = { res := some r, flag := some f, eq := a == b } ∧
      r.toNat = a.toNat * 2 % 256 ∧ f.toNat = a.toNat / 128 :=
  ⟨_, _, rfl, byte_shiftLeft_one_toNat a, shiftLeftFlag_toNat a⟩

/-! ### Each instruction of class 8 is the shared ALU instruction with its own function (R162 to R170) -/

theorem exec_ldReg (s : State) (x y : Nibble) :
    exec (.ldReg x y) s = completeAlu s .passB x (readV s y) := rfl

theorem exec_orReg (s : State) (x y : Nibble) : exec (.orReg x y) s = completeAlu s .or x (readV s y) := rfl

theorem exec_andReg (s : State) (x y : Nibble) : exec (.andReg x y) s = completeAlu s .and x (readV s y) := rfl

theorem exec_xorReg (s : State) (x y : Nibble) : exec (.xorReg x y) s = completeAlu s .xor x (readV s y) := rfl

theorem exec_addReg (s : State) (x y : Nibble) : exec (.addReg x y) s = completeAlu s .add x (readV s y) := rfl

theorem exec_subReg (s : State) (x y : Nibble) : exec (.subReg x y) s = completeAlu s .sub x (readV s y) := rfl

theorem exec_shrReg (s : State) (x y : Nibble) : exec (.shrReg x y) s = completeAlu s .shr x (readV s y) := rfl

theorem exec_subnReg (s : State) (x y : Nibble) : exec (.subnReg x y) s = completeAlu s .subn x (readV s y) := rfl

theorem exec_shlReg (s : State) (x y : Nibble) : exec (.shlReg x y) s = completeAlu s .shl x (readV s y) := rfl

/-! ### The shared ALU instruction, for a function without a flag and for one with a flag -/

theorem completeAlu_withoutFlag {s : State} {fn : AluFn} {x : Nibble} {b res : Byte}
    (hres : aluRes fn (readV s x) b = some res) (hflag : aluFlag fn (readV s x) b = none) :
    ∃ t, completeAlu s fn x b = .next t ∧ readV t x = res ∧ t.pc = s.pc + 2 ∧ t.event = none ∧ FrameV s t [x] := by
  obtain ⟨t, hx, hv, -, hrest⟩ := completeAlu_spec s fn x b res [x] hres List.mem_cons_self (.inl hflag)
  exact ⟨t, hx, hv, hrest⟩

/-- What a row of R161's table says of its result and flag, the instruction leaves in `V[x]` and, for `x` other than
0xF, in VF. -/
theorem completeAlu_of_row {s : State} {fn : AluFn} {x : Nibble} {b : Byte} {R F : Byte → Prop}
    (hrow : ∃ res flag, alu fn (readV s x) b = { res := some res, flag := some flag, eq := readV s x == b } ∧
      R res ∧ F flag) :
    ∃ t, completeAlu s fn x b = .next t ∧ R (readV t x) ∧ (x ≠ 0xF → F (readV t 0xF)) ∧
      t.pc = s.pc + 2 ∧ t.event = none ∧ FrameV s t [x, 0xF] := by
  obtain ⟨res, flag, halu, hR, hF⟩ := hrow
  have hres : aluRes fn (readV s x) b = some res := congrArg AluOut.res halu
  have hflag : aluFlag fn (readV s x) b = some flag := congrArg AluOut.flag halu
  obtain ⟨t, hx, hv, hvf, hrest⟩ :=
    completeAlu_spec s fn x b res [x, 0xF] hres List.mem_cons_self (.inr (by simp))
  rw [hflag, Option.getD_some] at hvf
  exact ⟨t, hx, hv ▸ hR, fun h => hvf h ▸ hF, hrest⟩

/-! ### The obligations -/

/-- Settles O41: each row of the table, those with a flag by the numbers that the result and the flag are. -/
theorem aluFunctionTable : Obligations.AluFunctionTable := by
  unfold Obligations.AluFunctionTable
  exact ⟨rfl, alu_fe_iff, fun a b => ⟨rfl, rfl, rfl, rfl, alu_add a b, alu_sub a b, alu_shr a b, alu_subn a b,
    alu_shl a b, ⟨_, rfl, BitVec.toNat_add a b⟩, rfl⟩⟩

/-- Settles O42: the four functions have no flag, so the frame is that of `V[x]` alone. -/
theorem copyAndLogicWriteOnlyVx : Obligations.CopyAndLogicWriteOnlyVx := by
  unfold Obligations.CopyAndLogicWriteOnlyVx
  intro s x y
  rw [exec_ldReg, exec_orReg, exec_andReg, exec_xorReg]
  exact ⟨completeAlu_withoutFlag rfl rfl, completeAlu_withoutFlag rfl rfl, completeAlu_withoutFlag rfl rfl,
    completeAlu_withoutFlag rfl rfl⟩

/-- Settles O43: the row of ADD, with the carry of the exact sum. -/
theorem addRegSumAndCarry : Obligations.AddRegSumAndCarry := by
  unfold Obligations.AddRegSumAndCarry
  intro s x y
  rw [exec_addReg]
  exact (completeAlu_of_row (alu_add (readV s x) (readV s y)) :)

/-- Settles O44: the row of SUB, whose minuend is `V[x]`. -/
theorem subRegDifferenceAndNotBorrow : Obligations.SubRegDifferenceAndNotBorrow := by
  unfold Obligations.SubRegDifferenceAndNotBorrow
  intro s x y
  rw [exec_subReg]
  exact (completeAlu_of_row (alu_sub (readV s x) (readV s y)) :)

/-- Settles O45: the row of SHR, which reads `V[x]` alone. -/
theorem shrRegHalvesVx : Obligations.ShrRegHalvesVx := by
  unfold Obligations.ShrRegHalvesVx
  intro s x y
  rw [exec_shrReg]
  exact (completeAlu_of_row (alu_shr (readV s x) (readV s y)) :)

/-- Settles O46: the row of SUBN, whose minuend is `V[y]`. -/
theorem subnRegDifferenceAndNotBorrow : Obligations.SubnRegDifferenceAndNotBorrow := by
  unfold Obligations.SubnRegDifferenceAndNotBorrow
  intro s x y
  rw [exec_subnReg]
  exact (completeAlu_of_row (alu_subn (readV s x) (readV s y)) :)

/-- Settles O47: the row of SHL, which reads `V[x]` alone. -/
theorem shlRegDoublesVx : Obligations.ShlRegDoublesVx := by
  unfold Obligations.ShlRegDoublesVx
  intro s x y
  rw [exec_shlReg]
  exact (completeAlu_of_row (alu_shl (readV s x) (readV s y)) :)

end Sys2Proof.Machine

/-! ## Index, indexed jump and random (45_index_jump_random.md R190 to R192) -/

namespace Sys2Proof.Machine

/-! ### What each of the three instructions answers -/

theorem exec_ldI (s : State) (nnn : Addr) :
    exec (.ldI nnn) s = .next (setI (setEvent (setPc s (s.pc + 2)) none) (zextAddr nnn)) := rfl

theorem exec_jpV0 (s : State) (nnn : Addr) :
    exec (.jpV0 nnn) s = .next (setEvent (setPc s (nextPc s (.rel0 nnn))) none) := rfl

theorem exec_rnd (s : State) (x : Nibble) (kk : Byte) :
    exec (.rnd x kk) s = .next (useRnd (loadV s x (s.rnd &&& kk) (s.pc + 2))) := rfl

theorem readV_useRnd_loadV_same (s : State) (x : Nibble) (b : Byte) (pc : Word) :
    readV (useRnd (loadV s x b pc)) x = b := by
  rw [readV_useRnd, readV_loadV_same]

/-! ### R191, R223: the halt at a jump's target -/

/-- Halt entry also clears the event, so after an instruction without one the run state is its only change. -/
theorem step_outOfBounds_of_event_none {s : State} (hr : s.run = .running) (hev : s.event = none)
    (hpc : 0x0FFE < s.pc.toNat) :
    step s = .next { s with run := .halted { kind := .outOfBounds, haltPc := s.pc, op := none } } := by
  rw [step_outOfBounds hr hpc, haltEntry, ← hev]
  rfl

/-! ### The obligations -/

/-- Settles O49: the sum of a 12-bit and an 8-bit number fits 16 bits, and above 0xFFE the next fetch fails. -/
theorem jpV0AddsUnmasked : Obligations.JpV0AddsUnmasked := by
  unfold Obligations.JpV0AddsUnmasked
  intro s nnn
  have hsum := nextPc_rel0_toNat s nnn
  refine ⟨_, exec_jpV0 s nnn, hsum, rfl, frameV_pcEvent s _ none [], fun hrun habove => ?_⟩
  exact step_outOfBounds_of_event_none hrun rfl (habove.trans_eq hsum.symm)

/-- Settles O50: the mask keeps no bit outside `kk`, and all bits are outside 0x00. -/
theorem rndMasksTheStepsByte : Obligations.RndMasksTheStepsByte := by
  unfold Obligations.RndMasksTheStepsByte
  intro s x kk
  have hv := readV_useRnd_loadV_same s x (s.rnd &&& kk) (s.pc + 2)
  refine ⟨_, exec_rnd s x kk, hv, ?_, fun hkk => ?_, rfl, rfl, frameV_loadV s x _ _⟩
  · rw [hv, BitVec.and_assoc, BitVec.and_not_self]
    exact BitVec.and_zero
  · rw [hv, hkk]
    exact BitVec.and_zero

/-- Settles O48: zero extension keeps `nnn` as a number. -/
theorem ldILoadsTheIndex : Obligations.LdILoadsTheIndex := by
  unfold Obligations.LdILoadsTheIndex
  exact fun s nnn => ⟨_, exec_ldI s nnn, zextAddr_toNat nnn, rfl, rfl, frameV_pcEvent s (s.pc + 2) none []⟩

end Sys2Proof.Machine


/-! ## The collaborator slots (46_collaborator_slots.md R200, R213) -/

namespace Sys2Proof

/-- A slot without a row carries the `kk` of its own word (R79). -/
theorem eq_kkOf_of_classify_slotF {set : FSlotSet} {w : Word} {kk : Byte} (h : classify set w = .slotF kk) :
    kk = kkOf w := by
  cases hd : decodeWord w with
  | ok i =>
    simp only [classify, hd] at h
    split_ifs at h
  | error r =>
    by_cases hr : r = .classF
    · subst hr
      rw [classify_rowless set hd] at h
      split_ifs at h
      exact (Op.slotF.inj h).symm
    · rw [classify_rejected set hd hr] at h
      cases h

end Sys2Proof

namespace Sys2Proof.Machine

/-! ### The common slot rule under each policy -/

theorem completeSlot_emits {s : State} (k : SlotKind) (w : Word) (hp : s.config.slotPolicy = .emitAndAdvance) :
    ∃ t, completeSlot s k w = .next t ∧ t.pc = s.pc + 2 ∧ FrameV s t [] ∧
      t.event = some (.slot (slotRecord s k w)) := by
  refine ⟨setEvent (setPc s (s.pc + 2)) (some (.slot (slotRecord s k w))), ?_, rfl, frameV_pcEvent _ _ _ _, rfl⟩
  rw [completeSlot, hp]
  rfl

theorem completeSlot_refused {s : State} (k : SlotKind) (w : Word) (hp : s.config.slotPolicy = .refuse) :
    completeSlot s k w = .refused (.slotRefused w) := by
  rw [completeSlot, hp]

theorem exec_slot_refused {s : State} {i : Instr} {k : SlotKind} (hk : slotKind i = some k)
    (hp : s.config.slotPolicy = .refuse) : exec i s = .refused (.slotRefused (encode i)) :=
  (exec_slot s hk).trans (completeSlot_refused k (encode i) hp)

/-! ### The step of a class-F word outside the slot set -/

/-- The slot policy plays no part: a class-F word that is not in the slot set is unknown, with a row or without
(R77). -/
theorem step_classF_outside {s : State} {w : Word} (hr : s.run = .running) (hf : fetch s = .ok w)
    (hc : classOf w = 0xF) (hk : s.config.fSlotSet.contains (kkOf w) = false) :
    step s = .next (haltEntry s .unknownOpcode (some w)) := by
  obtain ⟨o, ho, -⟩ := classify_classF s.config.fSlotSet hc
  rw [hk] at ho
  exact step_unknown hr hf ho

/-! ### The obligations -/

/-- Settles O51: a slot with a row and a step on one without run the common rule, which emits the record. -/
theorem slotsEmitAndAdvance : Obligations.SlotsEmitAndAdvance := by
  unfold Obligations.SlotsEmitAndAdvance
  constructor
  · intro s i k hk hp
    rw [exec_slot s hk]
    exact completeSlot_emits k (encode i) hp
  · intro s w kk hr hf hc hp
    rw [step_slotF hr hf hc, eq_kkOf_of_classify_slotF hc]
    exact completeSlot_emits (.f (kkOf w)) w hp

/-- Settles O52: the common rule refuses, and a class-F word outside the slot set does not reach it. -/
theorem refusePolicyRefusesSlots : Obligations.RefusePolicyRefusesSlots := by
  unfold Obligations.RefusePolicyRefusesSlots
  refine ⟨fun s i k => exec_slot_refused, fun s w hr hf hp hslot => ?_, fun s w => step_classF_outside⟩
  rcases hslot with ⟨i, k, hc, hk⟩ | ⟨kk, hc⟩
  · obtain ⟨rfl, -⟩ := classify_instr_iff.1 hc
    exact (step_instr hr hf hc).trans (exec_slot_refused hk hp)
  · exact (step_slotF hr hf hc).trans (completeSlot_refused _ w hp)

end Sys2Proof.Machine


/-! ## Exceptions (60_exceptions.md R221, R222, R226): the causes of a halt and the record of each -/

namespace Sys2Proof.Machine

/-- The only instructions with a check of their own are RET and CALL (R31, R32, R226). -/
theorem exec_keeps_run_or_stack_halts {i : Instr} {s t : State} (h : exec i s = .next t) :
    t.run = s.run ∨
    (i = .ret ∧ depth s = 0 ∧ t = haltEntry s .stackUnderflow (some (encode i))) ∨
    ((∃ nnn, i = .call nnn) ∧ 16 ≤ depth s ∧ t = haltEntry s .stackOverflow (some (encode i))) := by
  rcases exec_cases i s with ⟨ws, n, ev, hx⟩ | ⟨hi, hs, hx⟩ | ⟨hi, hs, hx⟩ | ⟨-, -, hx⟩ <;> rw [hx] at h
  · exact .inl (complete_run h)
  · exact .inr (.inl ⟨hi, List.length_eq_zero_iff.2 hs, failOn_eq h⟩)
  · exact .inr (.inr ⟨hi, hs, failOn_eq h⟩)
  · cases h

/-- The record of a state that halt entry leaves is the one halt entry wrote (R222). -/
theorem record_of_haltEntry {s : State} {k : HaltKind} {op : Option Word} {r : HaltRecord}
    (h : (haltEntry s k op).run = .halted r) : r = { kind := k, haltPc := s.pc, op := op } :=
  (RunState.halted.inj h).symm

theorem not_halted_of_running {s : State} {r : HaltRecord} (hr : s.run = .running) : s.run ≠ .halted r := by
  rw [hr]
  exact nofun

/-- Settles O15, branch by branch of the step: a failed fetch, an unknown word, a slot, which never halts, and an
instruction, of which only RET and CALL halt. -/
theorem haltCausesAndRecords : Obligations.HaltCausesAndRecords := by
  unfold Obligations.HaltCausesAndRecords
  intro s t r hr h ht
  rcases step_cases h with ⟨r', hh, -⟩ | ⟨-, ⟨hpc, rfl⟩ | ⟨w, hf, -, hw⟩⟩
  · exact absurd hh (not_halted_of_running hr)
  · exact .inl ⟨record_of_haltEntry ht, hpc⟩
  refine .inr ⟨w, hf, ?_⟩
  rcases hw with ⟨hc, rfl⟩ | ⟨kk, -, hx⟩ | ⟨i, hc, hx⟩
  · exact .inl ⟨record_of_haltEntry ht, hc⟩
  · exact absurd ht (not_halted_of_running ((complete_run (completeSlot_next hx).2).trans hr))
  · obtain ⟨rfl, -⟩ := classify_instr_iff.1 hc
    rcases exec_keeps_run_or_stack_halts hx with hrun | ⟨rfl, hd, rfl⟩ | ⟨⟨nnn, rfl⟩, hd, rfl⟩
    · exact absurd ht (not_halted_of_running (hrun.trans hr))
    · exact .inr (.inr ⟨record_of_haltEntry ht, rfl, hd⟩)
    · exact .inr (.inl ⟨record_of_haltEntry ht, classOf_packNnn 0x2 nnn, hd⟩)

end Sys2Proof.Machine


/-! ## Reset and the host's moves (70_reset_and_hazards.md R250 to R253) -/

namespace Sys2Proof.Machine

/-! ### What a reset leaves -/

/-- Settles O20: reset meets the invariant, and a load keeps it. -/
theorem resetAndLoadMeetInvariant : Obligations.ResetAndLoadMeetInvariant := by
  unfold Obligations.ResetAndLoadMeetInvariant
  exact fun c image => ⟨inv_resetWith c, inv_loadProgram image (inv_resetWith c)⟩

/-- The host's reset leaves no cell listed, so every address has its reset contents (R54, R55). -/
theorem readByte_hostReset (s : State) (a : Nat) : readByte (hostReset s) a = Memory.unlisted s.config a := rfl

/-- What the host's reset keeps, the parameters and the random input, is no register (R250). -/
theorem readV_hostReset (s : State) (x : Nibble) : readV (hostReset s) x = 0x00 := readV_resetWith s.config x

/-- Settles O24: each field has its reset value, memory reads as unlisted, and a running core has status 0 (R34). -/
theorem resetSetsEveryPieceOfState : Obligations.ResetSetsEveryPieceOfState := by
  unfold Obligations.ResetSetsEveryPieceOfState
  intro s
  have hstatus : coreStatus (hostReset s) = 0 := (coreStatusLayout (hostReset s)).1 (hostReset_run s)
  refine ⟨readV_hostReset s, hostReset_i s, hostReset_pc s, rfl, hostReset_run s, hstatus,
    fun a ha => ?_, fun a ha => ?_, rfl⟩
  · rw [readByte_hostReset, Memory.unlisted, dif_pos ha]
  · rw [readByte_hostReset, Memory.unlisted, dif_neg (Nat.not_lt.2 ha)]

/-! ### The four moves -/

namespace Session

theorem move_load_afterReset {h : Session} (image : List Byte) (hp : h.phase = .afterReset) :
    h.move (.loadProgram image) = .next { phase := .loaded, core := Machine.loadProgram image h.core } := by
  simp only [move, hp]

theorem move_load_refused {h : Session} (image : List Byte) (hp : h.phase ≠ .afterReset) :
    h.move (.loadProgram image) = .refused .loadOutsideWindow := by
  cases hphase : h.phase with
  | afterReset => exact absurd hphase hp
  | loaded => simp only [move, hphase]
  | stepped => simp only [move, hphase]

theorem move_step_of_next {h : Session} {b : Byte} {t : State} (hs : step (setRnd h.core b) = .next t) :
    h.move (.step b) = .next { phase := .stepped, core := t } := by
  simp only [move, hostStep, hs]

theorem move_step_of_refused {h : Session} {b : Byte} {r : Refusal} (hs : step (setRnd h.core b) = .refused r) :
    h.move (.step b) = .refused r := by
  simp only [move, hostStep, hs]

theorem move_step_of_fault {h : Session} {b : Byte} {f : Fault} (hs : step (setRnd h.core b) = .fault f) :
    h.move (.step b) = .fault f := by
  simp only [move, hostStep, hs]

/-- A step of the host answers as the core's step does, so that each kind of answer tells the core's. -/
theorem move_step_iff (h : Session) (b : Byte) :
    (∀ h', h.move (.step b) = .next h' ↔ h'.phase = .stepped ∧ step (setRnd h.core b) = .next h'.core) ∧
    (∀ r, h.move (.step b) = .refused r ↔ step (setRnd h.core b) = .refused r) ∧
    (∀ f, h.move (.step b) = .fault f ↔ step (setRnd h.core b) = .fault f) := by
  cases hs : step (setRnd h.core b) with
  | next t =>
    rw [move_step_of_next hs]
    refine ⟨fun ⟨phase, core⟩ => ?_, by simp, by simp⟩
    simp only [Host.Outcome.next.injEq, mk.injEq, eq_comm]
  | fault f => simp [move_step_of_fault hs]
  | refused r => simp [move_step_of_refused hs]

end Session

/-- Settles O27: the load by the phase of the session, the step by the core's answer; the other two are computed. -/
theorem hostMovesKeepToTheirWindow : Obligations.HostMovesKeepToTheirWindow := by
  unfold Obligations.HostMovesKeepToTheirWindow
  intro h image
  obtain ⟨hnext, hother⟩ := forall_and.1 h.move_step_iff
  obtain ⟨hrefused, hfault⟩ := forall_and.1 hother
  exact ⟨Session.move_load_afterReset image, Session.move_load_refused image, rfl, hnext, hrefused, hfault, rfl⟩

end Sys2Proof.Machine
